-- ==== Sys2Proof/Word.lean ====
section
/-! DEFINITION. The widths of the hardware's values (00_scope.md R8, R11): every value is unsigned. -/

namespace Sys2Proof

/-- A memory cell, a V register, a timer, an immediate `nn` (R8, R74). -/
abbrev Byte := BitVec 8

/-- An opcode, the program counter, the index register, a stack slot (R8, R70). -/
abbrev Word := BitVec 16

/-- The 12-bit address field `nnn` of an opcode (R71, R74). -/
abbrev Addr := BitVec 12

/-- The number of a general register V0–VF (R22). -/
abbrev Reg := Fin 16

/-- The 4-bit row count `n` of `DXYN` (R74). -/
abbrev Rows := Fin 16

/-- VF, the register that some instructions also write as a flag (R23). -/
def regVF : Reg := 15

end Sys2Proof
end

