-- ==== Sys2Proof/Syntax.lean ====
section
/-! DEFINITION. The instructions: one constructor per row of spec/opcode_table.json (30_encoding.md R73, R77). -/

namespace Sys2Proof

/-- The 34 instructions. `x` and `y` number registers, `nn` is a byte, `nnn` an address, `n` a row count (R74).
`shr` and `shl` carry the y field, which is encoded and has no effect (R75; log 25). -/
inductive Instr where
  /-- `00E0`, R110. -/
  | cls
  /-- `00EE`, R120. -/
  | ret
  /-- `1NNN`, R121. -/
  | jp (nnn : Addr)
  /-- `2NNN`, R123. -/
  | call (nnn : Addr)
  /-- `3XNN`, R130. -/
  | seImm (x : Reg) (nn : Byte)
  /-- `4XNN`, R131. -/
  | sneImm (x : Reg) (nn : Byte)
  /-- `5XY0`, R132. -/
  | seReg (x y : Reg)
  /-- `6XNN`, R140. -/
  | ldImm (x : Reg) (nn : Byte)
  /-- `7XNN`, R141. -/
  | addImm (x : Reg) (nn : Byte)
  /-- `8XY0`, R142. -/
  | ldReg (x y : Reg)
  /-- `8XY1`, R143. -/
  | or (x y : Reg)
  /-- `8XY2`, R144. -/
  | and (x y : Reg)
  /-- `8XY3`, R145. -/
  | xor (x y : Reg)
  /-- `8XY4`, R146. -/
  | addReg (x y : Reg)
  /-- `8XY5`, R147. -/
  | sub (x y : Reg)
  /-- `8XY6`, R148. -/
  | shr (x y : Reg)
  /-- `8XY7`, R149. -/
  | subn (x y : Reg)
  /-- `8XYE`, R150. -/
  | shl (x y : Reg)
  /-- `9XY0`, R133. -/
  | sneReg (x y : Reg)
  /-- `ANNN`, R170. -/
  | ldI (nnn : Addr)
  /-- `BNNN`, R124. -/
  | jpV0 (nnn : Addr)
  /-- `CXNN`, R155. -/
  | rnd (x : Reg) (nn : Byte)
  /-- `DXYN`, R112. -/
  | drw (x y : Reg) (n : Rows)
  /-- `EX9E`, R134. -/
  | skp (x : Reg)
  /-- `EXA1`, R135. -/
  | sknp (x : Reg)
  /-- `FX07`, R190. -/
  | ldVDt (x : Reg)
  /-- `FX0A`, R191. -/
  | ldVK (x : Reg)
  /-- `FX15`, R192. -/
  | ldDt (x : Reg)
  /-- `FX18`, R193. -/
  | ldSt (x : Reg)
  /-- `FX1E`, R171. -/
  | addI (x : Reg)
  /-- `FX29`, R172. -/
  | ldF (x : Reg)
  /-- `FX33`, R173. -/
  | ldB (x : Reg)
  /-- `FX55`, R174. -/
  | ldMemV (x : Reg)
  /-- `FX65`, R175. -/
  | ldVMem (x : Reg)
  deriving DecidableEq, Repr

end Sys2Proof
end

