-- ==== Sys2Proof/WellFormed.lean ====
section
/-! DEFINITION. The formats of 30_encoding.md R73 and the range check of each operand field (R71, R74, R75). The types of
`Instr`'s fields already keep every operand in range; the check itself is on operands as plain numbers, as an assembler
is handed them, and `Instr.wf` reads an instruction's operands as such numbers. -/

namespace Sys2Proof

/-- The six formats (R73), by which fields are operands. -/
inductive Format where
  /-- `F0`: no operand. -/
  | fixed
  /-- `FA`: nnn. -/
  | address
  /-- `FI`: x, nn. -/
  | registerImmediate
  /-- `FR`: x, y. -/
  | registerRegister
  /-- `FD`: x, y, n. -/
  | draw
  /-- `FX`: x. -/
  | registerSub
  deriving DecidableEq, Repr

/-- The operands of an instruction as numbers; a field the format lacks is 0. -/
structure OperandNumbers where
  x : Nat := 0
  y : Nat := 0
  n : Nat := 0
  nn : Nat := 0
  nnn : Nat := 0
  deriving DecidableEq, Repr

/-- Every operand field of the format fits its width (R71's table). -/
def operandsFit (f : Format) (o : OperandNumbers) : Bool :=
  match f with
  | .fixed => true
  | .address => decide (o.nnn < 0x1000)
  | .registerImmediate => decide (o.x < 16) && decide (o.nn < 0x100)
  | .registerRegister => decide (o.x < 16) && decide (o.y < 16)
  | .draw => decide (o.x < 16) && decide (o.y < 16) && decide (o.n < 16)
  | .registerSub => decide (o.x < 16)

/-- The format of an instruction (R73's table). -/
def formatOf : Instr → Format
  | .cls | .ret => .fixed
  | .jp _ | .call _ | .ldI _ | .jpV0 _ => .address
  | .seImm _ _ | .sneImm _ _ | .ldImm _ _ | .addImm _ _ | .rnd _ _ => .registerImmediate
  | .seReg _ _ | .sneReg _ _ | .ldReg _ _ | .or _ _ | .and _ _ | .xor _ _ | .addReg _ _ | .sub _ _
  | .shr _ _ | .subn _ _ | .shl _ _ => .registerRegister
  | .drw _ _ _ => .draw
  | .skp _ | .sknp _ | .ldVDt _ | .ldVK _ | .ldDt _ | .ldSt _ | .addI _ | .ldF _ | .ldB _ | .ldMemV _
  | .ldVMem _ => .registerSub

/-- The operands of an instruction as numbers (R75's table). -/
def operandsOf : Instr → OperandNumbers
  | .cls | .ret => {}
  | .jp nnn | .call nnn | .ldI nnn | .jpV0 nnn => { nnn := nnn.toNat }
  | .seImm x nn | .sneImm x nn | .ldImm x nn | .addImm x nn | .rnd x nn => { x := x.val, nn := nn.toNat }
  | .seReg x y | .sneReg x y | .ldReg x y | .or x y | .and x y | .xor x y | .addReg x y | .sub x y
  | .shr x y | .subn x y | .shl x y => { x := x.val, y := y.val }
  | .drw x y n => { x := x.val, y := y.val, n := n.val }
  | .skp x | .sknp x | .ldVDt x | .ldVK x | .ldDt x | .ldSt x | .addI x | .ldF x | .ldB x | .ldMemV x
  | .ldVMem x => { x := x.val }

/-- An instruction is well formed when its operands fit the fields of its format. -/
def Instr.wf (i : Instr) : Bool := operandsFit (formatOf i) (operandsOf i)

end Sys2Proof
end

