-- ==== Sys2Proof/Decode.lean ====
section
/-! DEFINITION. The decoder (30_encoding.md R70–R80), total on any bytes, and after it the encoder and the opcode table's
rows, both written from the encodings of R73 and R77. -/

namespace Sys2Proof

/-- Why bytes decode to no instruction. -/
inductive DecodeError where
  /-- A word that matches no pattern (R78). -/
  | unknownOpcode (w : Word)
  /-- Fewer than the two bytes of an opcode (R70): raised on byte strings only, never by the machine, whose fetch gives a
  whole word. -/
  | truncated
  deriving DecidableEq, Repr

/-- `op`, bits 15:12 (R71). -/
def opField (w : Word) : Nat := (w.extractLsb' 12 4).toNat

/-- `x`, bits 11:8 (R71). -/
def xField (w : Word) : Reg := ⟨(w.extractLsb' 8 4).toNat, (w.extractLsb' 8 4).isLt⟩

/-- `y`, bits 7:4 (R71). -/
def yField (w : Word) : Reg := ⟨(w.extractLsb' 4 4).toNat, (w.extractLsb' 4 4).isLt⟩

/-- `n`, bits 3:0 (R71). -/
def nField (w : Word) : Rows := ⟨(w.extractLsb' 0 4).toNat, (w.extractLsb' 0 4).isLt⟩

/-- `nn`, bits 7:0 (R71). -/
def nnField (w : Word) : Byte := w.extractLsb' 0 8

/-- `nnn`, bits 11:0 (R71). -/
def nnnField (w : Word) : Addr := w.extractLsb' 0 12

/-- Family 0 (R76, R77): the whole word must match. -/
def decodeFamily0 (w : Word) : Option Instr :=
  match (nnnField w).toNat with
  | 0x0E0 => some .cls
  | 0x0EE => some .ret
  | _ => none

/-- Family 8 (R76, R77): the low nibble selects. -/
def decodeFamily8 (w : Word) : Option Instr :=
  match (nField w).val with
  | 0x0 => some (.ldReg (xField w) (yField w))
  | 0x1 => some (.or (xField w) (yField w))
  | 0x2 => some (.and (xField w) (yField w))
  | 0x3 => some (.xor (xField w) (yField w))
  | 0x4 => some (.addReg (xField w) (yField w))
  | 0x5 => some (.sub (xField w) (yField w))
  | 0x6 => some (.shr (xField w) (yField w))
  | 0x7 => some (.subn (xField w) (yField w))
  | 0xE => some (.shl (xField w) (yField w))
  | _ => none

/-- Family E (R76, R77): the low byte selects. -/
def decodeFamilyE (w : Word) : Option Instr :=
  match (nnField w).toNat with
  | 0x9E => some (.skp (xField w))
  | 0xA1 => some (.sknp (xField w))
  | _ => none

/-- Family F (R76, R77): the low byte selects. -/
def decodeFamilyF (w : Word) : Option Instr :=
  match (nnField w).toNat with
  | 0x07 => some (.ldVDt (xField w))
  | 0x0A => some (.ldVK (xField w))
  | 0x15 => some (.ldDt (xField w))
  | 0x18 => some (.ldSt (xField w))
  | 0x1E => some (.addI (xField w))
  | 0x29 => some (.ldF (xField w))
  | 0x33 => some (.ldB (xField w))
  | 0x55 => some (.ldMemV (xField w))
  | 0x65 => some (.ldVMem (xField w))
  | _ => none

/-- The instruction whose pattern a word matches, if any (R77's table, by primary nibble). -/
def decodeOpcode (w : Word) : Option Instr :=
  match opField w with
  | 0x0 => decodeFamily0 w
  | 0x1 => some (.jp (nnnField w))
  | 0x2 => some (.call (nnnField w))
  | 0x3 => some (.seImm (xField w) (nnField w))
  | 0x4 => some (.sneImm (xField w) (nnField w))
  | 0x5 => if (nField w).val = 0 then some (.seReg (xField w) (yField w)) else none
  | 0x6 => some (.ldImm (xField w) (nnField w))
  | 0x7 => some (.addImm (xField w) (nnField w))
  | 0x8 => decodeFamily8 w
  | 0x9 => if (nField w).val = 0 then some (.sneReg (xField w) (yField w)) else none
  | 0xA => some (.ldI (nnnField w))
  | 0xB => some (.jpV0 (nnnField w))
  | 0xC => some (.rnd (xField w) (nnField w))
  | 0xD => some (.drw (xField w) (yField w) (nField w))
  | 0xE => decodeFamilyE w
  | 0xF => decodeFamilyF w
  | _ => none

/-- Decode of one opcode (R92): exactly one instruction, or the error that carries the word (R78). -/
def decodeWord (w : Word) : Except DecodeError Instr :=
  match decodeOpcode w with
  | some i => .ok i
  | none => .error (.unknownOpcode w)

/-- Decode of a byte string: its first two bytes, big-endian (R53, R70), and the bytes that follow. -/
def decode : List Byte → Except DecodeError (Instr × List Byte)
  | hi :: lo :: rest =>
    match decodeWord (hi ++ lo) with
    | .ok i => .ok (i, rest)
    | .error e => .error e
  | _ => .error .truncated

/-- Format `F0` (R73): the whole word. -/
def encodeF0 (word : Nat) : Word := BitVec.ofNat 16 word

/-- Format `FA` (R73): `oooo nnnn nnnn nnnn`. -/
def encodeFA (op : Nat) (nnn : Addr) : Word := BitVec.ofNat 16 (op * 0x1000 + nnn.toNat)

/-- Formats `FI` and `FX` (R73): `oooo xxxx iiii iiii`. -/
def encodeFI (op : Nat) (x : Reg) (low : Nat) : Word := BitVec.ofNat 16 (op * 0x1000 + x.val * 0x100 + low)

/-- Formats `FR` and `FD` (R73): `oooo xxxx yyyy ssss`. -/
def encodeFR (op : Nat) (x y : Reg) (low : Nat) : Word :=
  BitVec.ofNat 16 (op * 0x1000 + x.val * 0x100 + y.val * 0x10 + low)

/-- The opcode of an instruction (R73, R77). -/
def encode : Instr → Word
  | .cls => encodeF0 0x00E0
  | .ret => encodeF0 0x00EE
  | .jp nnn => encodeFA 0x1 nnn
  | .call nnn => encodeFA 0x2 nnn
  | .seImm x nn => encodeFI 0x3 x nn.toNat
  | .sneImm x nn => encodeFI 0x4 x nn.toNat
  | .seReg x y => encodeFR 0x5 x y 0x0
  | .ldImm x nn => encodeFI 0x6 x nn.toNat
  | .addImm x nn => encodeFI 0x7 x nn.toNat
  | .ldReg x y => encodeFR 0x8 x y 0x0
  | .or x y => encodeFR 0x8 x y 0x1
  | .and x y => encodeFR 0x8 x y 0x2
  | .xor x y => encodeFR 0x8 x y 0x3
  | .addReg x y => encodeFR 0x8 x y 0x4
  | .sub x y => encodeFR 0x8 x y 0x5
  | .shr x y => encodeFR 0x8 x y 0x6
  | .subn x y => encodeFR 0x8 x y 0x7
  | .shl x y => encodeFR 0x8 x y 0xE
  | .sneReg x y => encodeFR 0x9 x y 0x0
  | .ldI nnn => encodeFA 0xA nnn
  | .jpV0 nnn => encodeFA 0xB nnn
  | .rnd x nn => encodeFI 0xC x nn.toNat
  | .drw x y n => encodeFR 0xD x y n.val
  | .skp x => encodeFI 0xE x 0x9E
  | .sknp x => encodeFI 0xE x 0xA1
  | .ldVDt x => encodeFI 0xF x 0x07
  | .ldVK x => encodeFI 0xF x 0x0A
  | .ldDt x => encodeFI 0xF x 0x15
  | .ldSt x => encodeFI 0xF x 0x18
  | .addI x => encodeFI 0xF x 0x1E
  | .ldF x => encodeFI 0xF x 0x29
  | .ldB x => encodeFI 0xF x 0x33
  | .ldMemV x => encodeFI 0xF x 0x55
  | .ldVMem x => encodeFI 0xF x 0x65

/-- A word as memory holds it: the most significant byte first (R53). -/
def wordBytes (w : Word) : List Byte := [w.extractLsb' 8 8, w.extractLsb' 0 8]

/-- The bytes of an instruction, as a program image holds them. -/
def encodeBytes (i : Instr) : List Byte := wordBytes (encode i)

/-- A row of the opcode table: the words it stands for are those equal to `pattern` under `mask`. -/
structure OpcodeRow where
  mnemonic : String
  mask : Word
  pattern : Word
  deriving DecidableEq, Repr

/-- A word matches a row (R72). -/
def rowMatches (r : OpcodeRow) (w : Word) : Bool := w &&& r.mask == r.pattern

/-- The 34 rows of spec/opcode_table.json, in its order, with its masks and match values. -/
def opcodeTable : List OpcodeRow :=
  [⟨"CLS", 0xFFFF, 0x00E0⟩, ⟨"RET", 0xFFFF, 0x00EE⟩, ⟨"JP", 0xF000, 0x1000⟩, ⟨"CALL", 0xF000, 0x2000⟩,
   ⟨"SE_imm", 0xF000, 0x3000⟩, ⟨"SNE_imm", 0xF000, 0x4000⟩, ⟨"SE_reg", 0xF00F, 0x5000⟩] ++
  [⟨"LD_imm", 0xF000, 0x6000⟩, ⟨"ADD_imm", 0xF000, 0x7000⟩, ⟨"LD_reg", 0xF00F, 0x8000⟩, ⟨"OR", 0xF00F, 0x8001⟩,
   ⟨"AND", 0xF00F, 0x8002⟩, ⟨"XOR", 0xF00F, 0x8003⟩, ⟨"ADD_reg", 0xF00F, 0x8004⟩, ⟨"SUB", 0xF00F, 0x8005⟩] ++
  [⟨"SHR", 0xF00F, 0x8006⟩, ⟨"SUBN", 0xF00F, 0x8007⟩, ⟨"SHL", 0xF00F, 0x800E⟩, ⟨"SNE_reg", 0xF00F, 0x9000⟩,
   ⟨"LD_I", 0xF000, 0xA000⟩, ⟨"JP_V0", 0xF000, 0xB000⟩, ⟨"RND", 0xF000, 0xC000⟩, ⟨"DRW", 0xF000, 0xD000⟩] ++
  [⟨"SKP", 0xF0FF, 0xE09E⟩, ⟨"SKNP", 0xF0FF, 0xE0A1⟩, ⟨"LD_V_DT", 0xF0FF, 0xF007⟩, ⟨"LD_V_K", 0xF0FF, 0xF00A⟩,
   ⟨"LD_DT", 0xF0FF, 0xF015⟩, ⟨"LD_ST", 0xF0FF, 0xF018⟩, ⟨"ADD_I", 0xF0FF, 0xF01E⟩, ⟨"LD_F", 0xF0FF, 0xF029⟩] ++
  [⟨"LD_B", 0xF0FF, 0xF033⟩, ⟨"LD_mem_V", 0xF0FF, 0xF055⟩, ⟨"LD_V_mem", 0xF0FF, 0xF065⟩]

/-- The opcode table's mnemonic of an instruction. -/
def mnemonicOf : Instr → String
  | .cls => "CLS" | .ret => "RET" | .jp _ => "JP" | .call _ => "CALL"
  | .seImm _ _ => "SE_imm" | .sneImm _ _ => "SNE_imm" | .seReg _ _ => "SE_reg"
  | .ldImm _ _ => "LD_imm" | .addImm _ _ => "ADD_imm" | .ldReg _ _ => "LD_reg"
  | .or _ _ => "OR" | .and _ _ => "AND" | .xor _ _ => "XOR" | .addReg _ _ => "ADD_reg" | .sub _ _ => "SUB"
  | .shr _ _ => "SHR" | .subn _ _ => "SUBN" | .shl _ _ => "SHL" | .sneReg _ _ => "SNE_reg"
  | .ldI _ => "LD_I" | .jpV0 _ => "JP_V0" | .rnd _ _ => "RND" | .drw _ _ _ => "DRW"
  | .skp _ => "SKP" | .sknp _ => "SKNP" | .ldVDt _ => "LD_V_DT" | .ldVK _ => "LD_V_K"
  | .ldDt _ => "LD_DT" | .ldSt _ => "LD_ST" | .addI _ => "ADD_I" | .ldF _ => "LD_F"
  | .ldB _ => "LD_B" | .ldMemV _ => "LD_mem_V" | .ldVMem _ => "LD_V_mem"

/-- One hex digit. -/
def hexDigit (k : Nat) : String :=
  (["0", "1", "2", "3", "4", "5", "6", "7", "8", "9", "A", "B", "C", "D", "E", "F"] : List String).getD (k % 16) ""

/-- A number in hex, `0x…`, with the digits of its field (R81). -/
def hexText : Nat → Nat → String
  | 0, _ => "0x"
  | d + 1, k => hexText d (k / 16) ++ hexDigit k

/-- `Vx` (R81). -/
def regText (x : Reg) : String := "V" ++ hexDigit x.val

/-- The instruction in the spec's assembly notation (R81, D18; log 30); the ignored y of `8XY6` and `8XYE` is not written.
The notation has no part in decoding or execution. -/
def assemblyText : Instr → String
  | .cls => "CLS"
  | .ret => "RET"
  | .jp nnn => "JP " ++ hexText 3 nnn.toNat
  | .call nnn => "CALL " ++ hexText 3 nnn.toNat
  | .seImm x nn => "SE " ++ regText x ++ ", " ++ hexText 2 nn.toNat
  | .sneImm x nn => "SNE " ++ regText x ++ ", " ++ hexText 2 nn.toNat
  | .seReg x y => "SE " ++ regText x ++ ", " ++ regText y
  | .ldImm x nn => "LD " ++ regText x ++ ", " ++ hexText 2 nn.toNat
  | .addImm x nn => "ADD " ++ regText x ++ ", " ++ hexText 2 nn.toNat
  | .ldReg x y => "LD " ++ regText x ++ ", " ++ regText y
  | .or x y => "OR " ++ regText x ++ ", " ++ regText y
  | .and x y => "AND " ++ regText x ++ ", " ++ regText y
  | .xor x y => "XOR " ++ regText x ++ ", " ++ regText y
  | .addReg x y => "ADD " ++ regText x ++ ", " ++ regText y
  | .sub x y => "SUB " ++ regText x ++ ", " ++ regText y
  | .shr x _ => "SHR " ++ regText x
  | .subn x y => "SUBN " ++ regText x ++ ", " ++ regText y
  | .shl x _ => "SHL " ++ regText x
  | .sneReg x y => "SNE " ++ regText x ++ ", " ++ regText y
  | .ldI nnn => "LD I, " ++ hexText 3 nnn.toNat
  | .jpV0 nnn => "JP V0, " ++ hexText 3 nnn.toNat
  | .rnd x nn => "RND " ++ regText x ++ ", " ++ hexText 2 nn.toNat
  | .drw x y n => "DRW " ++ regText x ++ ", " ++ regText y ++ ", " ++ hexText 1 n.val
  | .skp x => "SKP " ++ regText x
  | .sknp x => "SKNP " ++ regText x
  | .ldVDt x => "LD " ++ regText x ++ ", DT"
  | .ldVK x => "LD " ++ regText x ++ ", K"
  | .ldDt x => "LD DT, " ++ regText x
  | .ldSt x => "LD ST, " ++ regText x
  | .addI x => "ADD I, " ++ regText x
  | .ldF x => "LD F, " ++ regText x
  | .ldB x => "LD B, " ++ regText x
  | .ldMemV x => "LD [I], " ++ regText x
  | .ldVMem x => "LD " ++ regText x ++ ", [I]"

/-- The low `nbits` bits of a number as one opcode: the longest instruction is one 16-bit word (R70). -/
def tableWord (nbits w : Nat) : Word := BitVec.ofNat 16 (w % 2 ^ nbits)

/-- What the decoder reads from an instruction whose bits the opcode table numbers as `w`: its word is laid out big-endian
(R53) and given to `decode`. -/
def decodeTableWord (nbits w : Nat) : Option Instr :=
  match decode (wordBytes (tableWord nbits w)) with
  | .ok (i, _) => some i
  | .error _ => none

end Sys2Proof
end

