-- ==== Sys2Proof/Config.lean ====
section
/-! DEFINITION. The fixed parameters of 00_scope.md R8, the default of `FONTSET`, and the free values of R9. -/

namespace Sys2Proof.Config

/-- `MEM_SIZE` (R8): addresses 0x000–0xFFF exist. -/
@[simp] def memSize : Nat := 0x1000

/-- `PROG_BASE` (R8): the reset PC and the load address. -/
@[simp] def progBase : Nat := 0x200

/-- `PROG_MAX` (R8): 0x1000 − 0x200 bytes. -/
@[simp] def progMax : Nat := 3584

/-- The default of the parameter `FONTSET` (R37's table, D14). PRESUMED: the spec marks the bytes as from general
knowledge; the model only uses them as the reset value of the field `fontset` (log 1). Unsafe for a claim about them. -/
def defaultFontset : Vector Byte 80 :=
  ⟨(([0xF0, 0x90, 0x90, 0x90, 0xF0,  0x20, 0x60, 0x20, 0x20, 0x70,
      0xF0, 0x10, 0xF0, 0x80, 0xF0,  0xF0, 0x10, 0xF0, 0x10, 0xF0] : List Byte) ++
    [0x90, 0x90, 0xF0, 0x10, 0x10,  0xF0, 0x80, 0xF0, 0x10, 0xF0,
      0xF0, 0x80, 0xF0, 0x90, 0xF0,  0xF0, 0x10, 0x20, 0x40, 0x40] ++
    [0xF0, 0x90, 0xF0, 0x90, 0xF0,  0xF0, 0x90, 0xF0, 0x10, 0xF0,
      0xF0, 0x90, 0xF0, 0x90, 0x90,  0xE0, 0x90, 0xE0, 0x90, 0xE0] ++
    [0xF0, 0x80, 0x80, 0x80, 0xF0,  0xE0, 0x90, 0x90, 0x90, 0xE0,
      0xF0, 0x80, 0xF0, 0x80, 0xF0,  0xF0, 0x80, 0xF0, 0x80, 0x80]).toArray, rfl⟩

/-- The parameter `rand` (R9, R155, D15): the byte drawn by the execution that reads the counter `draws` at this value.
A free value: no body, so any byte at every execution, with no relation between the executions of one run (log 2). That two
Machines side by side, or two runs, with equal counters draw the same byte is the model's choice (DESIGN CHOICE, log 31):
unsafe for a claim that compares them. -/
opaque rand : Nat → Byte

/-- The parameter `key_choice` (R9, R191, D12): which of the pressed keys a completing `FX0A` reports, as an index taken
modulo their number. A free value: no body (log 3). That two Machines side by side, or two runs, with equal counters choose by
the same index is the model's choice (DESIGN CHOICE, log 31): unsafe for a claim that compares them. -/
opaque keyChoice : Nat → Nat

end Sys2Proof.Config
end

