-- ==== Sys2Proof/Machine/State.lean ====
section
/-! DEFINITION. The Machine aggregate of 10_state.md R20–R43 as plain data, the reasons a step stops, and reset. -/

namespace Sys2Proof.Machine

/-- The cells of memory that differ from what an unlisted address reads as: addresses strictly rising (Machine/Ops.lean
gives the canonical form `Memory.wf` and every operation). -/
abbrev Memory := List Host.Cell

/-- 64 columns of 32 rows of 1-bit pixels, `fb[x][y]` (R34). -/
abbrev Framebuffer := Vector (Vector Bool 32) 64

/-- The state of the core: the fields of R20 and R21, then two fields of the model's own. -/
structure State where
  /-- Memory: 4096 bytes (R20, R50). -/
  mem : Memory
  /-- V0–VF (R22); VF is also the flag (R23, R39). -/
  v : Vector Byte 16
  /-- The index register I (R29). -/
  i : Word
  /-- The program counter (R25). -/
  pc : Word
  /-- The call stack's 16 slots (R30). -/
  stack : Vector Word 16
  /-- The stack pointer: how many slots are occupied, 0..16 (R30, C2). -/
  sp : Fin 17
  /-- The framebuffer (R34). -/
  fb : Framebuffer
  /-- The draw flag (R35). -/
  draw : Bool
  /-- The delay timer DT (R32). -/
  dt : Byte
  /-- The sound timer ST (R33). -/
  st : Byte
  /-- The key state, true = pressed (R36). -/
  key : Vector Bool 16
  /-- The mark of a fatal error (R21, R208). -/
  faulted : Bool
  /-- The model's own: the parameter `FONTSET` (R9, R37). No operation writes it (log 1). -/
  fontset : Vector Byte 80
  /-- The model's own: which free value the next draw of `rand` or `key_choice` takes (R9; log 2, log 3). Two
  Machines with equal counters draw alike (DESIGN CHOICE, log 31). -/
  draws : Nat
  deriving DecidableEq, Repr, Inhabited

/-- Why a step stops. The first five are the fatal errors of R200, with the info R200 gives each. -/
inductive Fault where
  /-- Raised by `EX9E` and `EXA1` with VX ≥ 16 (R137, R205, D11). Safe: the hardware might test some key instead. -/
  | invalidKeyIndex (v : Byte)
  /-- Raised by the fetch (R54) and by `DXYN`, `FX33`, `FX55`, `FX65` (R57), with the first address above 0xFFF
  (R201). Safe: the spec raises it. -/
  | memoryOutOfBounds (addr : Nat)
  /-- Raised by `2NNN` with SP = 16 (R123, R202). Safe: the spec raises it. -/
  | stackOverflow (pc : Word)
  /-- Raised by `00EE` with SP = 0 (R120, R204). Safe: the spec raises it. -/
  | stackUnderflow (pc : Word)
  /-- Raised by decode (R78, R203). Safe: the spec raises it. -/
  | unknownOpcode (word : Word)
  /-- A stuck state, raised by `step` on a machine that a fatal error has faulted: R100 gives such a call no transition
  (log 5). Safe: nothing can be proved of what follows. -/
  | machineFaulted
  deriving DecidableEq, Repr

/-- Why an instruction has no meaning. -/
inductive Refusal where
  /-- Raised by `exec`'s arms alone, for an instruction not modelled yet; every instruction of this model has its
  meaning, so nothing raises it. Safe. -/
  | notModelled (mnemonic : String)
  deriving DecidableEq, Repr

/-- What a step answers. -/
abbrev Outcome := Host.Outcome State Fault Refusal

/-- The Machine after a fatal error, of which only `faulted` is defined (R209, U1): a free value, with no body; the model
uses it for every field the spec leaves without a value (log 4). Safe for one Machine. That two equal Machines are left equal
by the same error is the model's choice (DESIGN CHOICE, log 31): unsafe for a claim that compares them. -/
opaque Config.afterFatal : State → Fault → State

/-- The Machine after `reset()` with the given fontset (R42, R240). Memory lists nothing: an unlisted address reads as
its reset contents. `draws` starts at 0 (DESIGN CHOICE, log 2), so that any two runs from here draw alike (DESIGN CHOICE, log 31). -/
def State.resetWith (font : Vector Byte 80) : State where
  mem := []
  v := Vector.replicate 16 0
  i := 0
  pc := 0x200
  stack := Vector.replicate 16 0
  sp := 0
  fb := Vector.replicate 64 (Vector.replicate 32 false)
  draw := false
  dt := 0
  st := 0
  key := Vector.replicate 16 false
  faulted := false
  fontset := font
  draws := 0

/-- The Machine after `reset()`, with the default fontset (R37, D14; PRESUMED, log 1). -/
def State.reset : State := State.resetWith Config.defaultFontset

end Sys2Proof.Machine
end

