-- ==== Sys2Proof/Machine/Ops.lean ====
section
/-! DEFINITION. The shared operations over memory, registers, the program counter and the call stack, and the entry into
a fatal error. -/

namespace Sys2Proof.Machine

/-! ### Memory (20_memory.md) -/

/-- What an address that memory does not list reads as: the reset contents (R42), the fontset at 0x000–0x04F (R37) and 0
above. -/
def Memory.unlisted (font : Vector Byte 80) (a : Nat) : Byte :=
  if h : a < 80 then font[a] else 0

/-- The entry listed for an address. -/
def Memory.find : Memory → Nat → Option Byte
  | [], _ => none
  | (k, w) :: m, a => if k = a then some w else Memory.find m a

/-- The byte at an address (R59). -/
def Memory.read (font : Vector Byte 80) (m : Memory) (a : Nat) : Byte :=
  match Memory.find m a with
  | some w => w
  | none => Memory.unlisted font a

/-- List an address with a byte, keeping the addresses strictly rising. -/
def Memory.put (a : Nat) (w : Byte) : Memory → Memory
  | [] => [(a, w)]
  | (k, u) :: m =>
    if a < k then (a, w) :: (k, u) :: m
    else if a = k then (a, w) :: m
    else (k, u) :: Memory.put a w m

/-- Take an address off the list. -/
def Memory.erase (a : Nat) : Memory → Memory
  | [] => []
  | (k, u) :: m => if k = a then m else (k, u) :: Memory.erase a m

/-- Store one byte at an address 0x000–0xFFF (R58: no protection). An address above 0xFFF is not a cell and nothing is
stored; `accessFault` has stopped the instruction before (log 26). -/
def Memory.write (font : Vector Byte 80) (m : Memory) (a : Nat) (w : Byte) : Memory :=
  if Config.memSize ≤ a then m
  else if w = Memory.unlisted font a then Memory.erase a m
  else Memory.put a w m

/-- The canonical form: addresses strictly rising, each a cell of R50, and no entry equal to what its address reads as
unlisted. -/
abbrev Memory.wf (font : Vector Byte 80) (m : Memory) : Prop :=
  m.Pairwise (fun c d => c.1 < d.1) ∧ ∀ c ∈ m, c.1 < Config.memSize ∧ c.2 ≠ Memory.unlisted font c.1

/-- `mem[a]` (00_scope.md R12). -/
def State.byteAt (s : State) (a : Nat) : Byte := Memory.read s.fontset s.mem a

/-- `mem[a] <- w` (R12, R13). -/
def State.setByte (s : State) (a : Nat) (w : Byte) : State :=
  { s with mem := Memory.write s.fontset s.mem a w }

/-- The bytes at `base`, `base + 1`, … (R56: ascending addresses, never wrapped). -/
def State.bytesAt (s : State) (base count : Nat) : List Byte :=
  (List.range count).map (fun k => s.byteAt (base + k))

/-- Store bytes at `base`, `base + 1`, … in that order (R56). -/
def State.storeBytes (base : Nat) : List Byte → State → State
  | [], s => s
  | w :: ws, s => State.storeBytes (base + 1) ws (s.setByte base w)

/-- The error of an access to `count` bytes from `base` (R57, R201): raised when some byte lies above 0xFFF, with the
first such address; an access of no byte raises none (R112's corner case N = 0). It serves the fetch (R54) too, whose
info is max(PC, 0x1000). The check is the whole access's and comes before any byte moves (N26; log 18). -/
def accessFault (base count : Nat) : Option Fault :=
  if 1 ≤ count ∧ 0xFFF < base + count - 1 then some (.memoryOutOfBounds (max base 0x1000)) else none

/-! ### Fatal errors (60_exceptions.md) -/

/-- A rule raises a fatal error (R13, R207, R208): the instruction ends with it, and none of its later effects happen.
The Machine that is then left behind is `State.enterFault`. -/
def raise (e : Fault) : Outcome := .fault e

/-- Fatal-error entry (R208): `faulted <- 1`; nothing is saved, no mode changes and control transfers nowhere. Every other
field of the spec's is unspecified (R209): a free value (log 4). The model's own two fields stay. There is no return from
it (R213); only `reset()` clears the mark (R240). -/
def State.enterFault (e : Fault) (s : State) : State :=
  { Config.afterFatal s e with faulted := true, fontset := s.fontset, draws := s.draws }

/-- The numeric code of R200 (D16); a call on a faulted machine is no error of R200 and has none. -/
def faultCode : Fault → Option Nat
  | .invalidKeyIndex _ => some 2
  | .memoryOutOfBounds _ => some 3
  | .stackOverflow _ => some 4
  | .stackUnderflow _ => some 5
  | .unknownOpcode _ => some 6
  | .machineFaulted => none

/-! ### Registers and the program counter (10_state.md) -/

/-- `V[x]` (R22). -/
def State.reg (s : State) (x : Reg) : Byte := s.v[x]

/-- `V[x] <- w` (R22: no register is hard-wired). -/
def State.setReg (s : State) (x : Reg) (w : Byte) : State := { s with v := s.v.set x w }

/-- `PC <- target` (R26, R27: never checked when set). -/
def State.jump (s : State) (target : Word) : State := { s with pc := target }

/-- `PC <- u16(PC + 2)` (R26). -/
def State.advance (s : State) : State := s.jump (s.pc + 2)

/-- `Skip(cond)` (43_skips.md R136). -/
def State.skipIf (s : State) (cond : Bool) : State := if cond then s.jump (s.pc + 4) else s.advance

/-! ### The call stack (42_control_flow.md R122) -/

/-- `Push(w)`: store at `stack[SP]`, then increment SP; `none` when the 16 slots are full. -/
def State.push (s : State) (w : Word) : Option State :=
  if h : s.sp.val < 16 then
    some { s with stack := s.stack.set s.sp.val w, sp := ⟨s.sp.val + 1, by omega⟩ }
  else none

/-- `Pop()`: decrement SP, then read `stack[SP]`, which is not cleared (R31); `none` when the stack is empty. -/
def State.pop (s : State) : Option (Word × State) :=
  if h : s.sp.val = 0 then none
  else some (s.stack[s.sp.val - 1], { s with sp := ⟨s.sp.val - 1, by omega⟩ })

end Sys2Proof.Machine
end

