-- ==== Sys2Proof/Machine/Operands.lean ====
section
/-! DEFINITION. The operand forms that an instruction's rule computes at execution (30_encoding.md R74, 43_skips.md R137,
45_index_memory.md R172, R173, R176, 46_timers_keys.md R191). A register, a byte, an address and a row count are used as
decoded. -/

namespace Sys2Proof.Machine

/-- `zext_16(nnn)` (R74). -/
def addrOperand (nnn : Addr) : Word := nnn.setWidth 16

/-- The effective address of byte 0 of a data access (R176): I, exact and unwrapped. -/
def State.dataBase (s : State) : Nat := s.i.toNat

/-- The target of `BNNN` (R124): NNN + V0. -/
def State.indexedTarget (s : State) (nnn : Addr) : Word := addrOperand nnn + (s.reg 0).setWidth 16

/-- The address of glyph number `a` (R172): 5 × VX, exact. -/
def glyphAddress (a : Byte) : Word := BitVec.ofNat 16 (5 * a.toNat)

/-- `KeyIndex(v)` (R137): the key a register's value names, if there is one. -/
def keyIndex (a : Byte) : Option (Fin 16) := if h : a.toNat < 16 then some ⟨a.toNat, h⟩ else none

/-- Whether key `k` is pressed (R36). -/
def State.pressed (s : State) (k : Fin 16) : Bool := s.key[k]

/-- The pressed keys, in rising order (R191's set P). -/
def State.pressedKeys (s : State) : List (Fin 16) := (List.finRange 16).filter (fun k => s.pressed k)

/-- `draw k from key_choice(P)` (R191, R9): some member of P, none when P is empty. With one key pressed it is that key;
with several, the free value `Config.keyChoice` chooses (log 3). -/
def chooseKey (choice : Nat) : List (Fin 16) → Option (Fin 16)
  | [] => none
  | [k] => some k
  | k :: ks => (k :: ks)[choice % (k :: ks).length]?

/-- The hundreds, tens and ones of a byte (R173). -/
def bcdDigits (a : Byte) : List Byte :=
  [BitVec.ofNat 8 (a.toNat / 100), BitVec.ofNat 8 (a.toNat / 10 % 10), BitVec.ofNat 8 (a.toNat % 10)]

/-- V0..VX (R174). -/
def State.regsUpTo (s : State) (x : Reg) : List Byte := s.v.toList.take (x.val + 1)

end Sys2Proof.Machine
end

