-- ==== Sys2Proof/Machine/ControlFlow.lean ====
section
/-! DEFINITION. `00EE`, `1NNN`, `2NNN`, `BNNN` (42_control_flow.md R120–R125). -/

namespace Sys2Proof.Machine

/-- `00EE` (R120): the popped value is used as is. -/
def execRet (s : State) : Outcome :=
  match s.pop with
  | none => raise (.stackUnderflow s.pc)
  | some (target, t) => .next (t.jump target)

/-- `1NNN` (R121): the target is not checked. -/
def execJp (nnn : Addr) (s : State) : Outcome := .next (s.jump (addrOperand nnn))

/-- `2NNN` (R123). -/
def execCall (nnn : Addr) (s : State) : Outcome :=
  match s.push (s.pc + 2) with
  | none => raise (.stackOverflow s.pc)
  | some t => .next (t.jump (addrOperand nnn))

/-- `BNNN` (R124): always V0, and the sum is not reduced modulo 0x1000. -/
def execJpV0 (nnn : Addr) (s : State) : Outcome := .next (s.jump (s.indexedTarget nnn))

end Sys2Proof.Machine
end

