-- ==== Sys2Proof/Machine/Flags.lean ====
section
/-! DEFINITION. The values VF takes as a flag (10_state.md R39), each from the operands as read at the start of the
instruction, and the write of it. -/

namespace Sys2Proof.Machine

/-- `8XY4` (R146): the sum exceeds 255. -/
def carryOut (a b : Byte) : Bool := decide (255 < a.toNat + b.toNat)

/-- `8XY5` with (VX, VY), `8XY7` with (VY, VX) (R147, R149): no borrow. -/
def noBorrow (minuend subtrahend : Byte) : Bool := decide (subtrahend.toNat ≤ minuend.toNat)

/-- `8XY6` (R148): bit 0, the bit shifted out to the right. -/
def bitOutRight (a : Byte) : Bool := a.getLsbD 0

/-- `8XYE` (R150): bit 7, the bit shifted out to the left. -/
def bitOutLeft (a : Byte) : Bool := a.getLsbD 7

/-- `FX1E` (R171): I + VX exceeds 0xFFF. -/
def indexOverflow (i : Word) (a : Byte) : Bool := decide (0xFFF < i.toNat + a.toNat)

/-- VF as a number. -/
def flagByte (f : Bool) : Byte := if f then 1 else 0

/-- `V[15] <- flag`, which every rule writes last (00_scope.md R14, D2; log 7). -/
def State.setFlag (s : State) (f : Bool) : State := s.setReg regVF (flagByte f)

end Sys2Proof.Machine
end

