-- ==== Sys2Proof/Machine/Display.lean ====
section
/-! DEFINITION. `00E0` and `DXYN` (41_display.md R110–R114). -/

namespace Sys2Proof.Machine

/-- The framebuffer with every pixel 0. -/
def clearFramebuffer : Framebuffer := Vector.replicate 64 (Vector.replicate 32 false)

/-- `fb[x][y]` (00_scope.md R12). -/
def pixelAt (fb : Framebuffer) (x : Fin 64) (y : Fin 32) : Bool := fb[x][y]

/-- `fb[x][y] <- fb[x][y] XOR 1`. -/
def togglePixel (fb : Framebuffer) (x : Fin 64) (y : Fin 32) : Framebuffer :=
  fb.set x (fb[x].set y (!pixelAt fb x y))

/-- A `DXYN` in progress: the pixels, and whether some pixel has gone from 1 to 0 (R114). -/
structure Blit where
  fb : Framebuffer
  collision : Bool
  deriving DecidableEq, Repr

/-- Column of the sprite pixel `c` columns right of `x0` (R113): each pixel's coordinate wraps. -/
def wrapColumn (x0 c : Nat) : Fin 64 := ⟨(x0 + c) % 64, Nat.mod_lt _ (by decide)⟩

/-- Row of the sprite pixel `r` rows below `y0` (R113). -/
def wrapRow (y0 r : Nat) : Fin 32 := ⟨(y0 + r) % 32, Nat.mod_lt _ (by decide)⟩

/-- Column `c` of the sprite's row `r`, whose byte is `row` (R111: bit 7 leftmost; R112's inner loop body). -/
def blitPixel (x0 y0 r : Nat) (row : Byte) (b : Blit) (c : Nat) : Blit :=
  if row.getLsbD (7 - c) then
    { fb := togglePixel b.fb (wrapColumn x0 c) (wrapRow y0 r)
      collision := b.collision || pixelAt b.fb (wrapColumn x0 c) (wrapRow y0 r) }
  else b

/-- The 8 columns of row `r` (R112's inner loop). -/
def blitRow (x0 y0 r : Nat) (row : Byte) (b : Blit) : Blit :=
  (List.range 8).foldl (blitPixel x0 y0 r row) b

/-- The rows from row `r` on (R112's outer loop). -/
def blitRows (x0 y0 : Nat) : Nat → List Byte → Blit → Blit
  | _, [], b => b
  | r, row :: rows, b => blitRows x0 y0 (r + 1) rows (blitRow x0 y0 r row b)

/-- XOR a sprite, given by its rows, onto a framebuffer with its top left pixel at (x0, y0) (R112). -/
def blitSprite (x0 y0 : Nat) (rows : List Byte) (fb : Framebuffer) : Blit :=
  blitRows x0 y0 0 rows { fb := fb, collision := false }

/-- `00E0` (R110). -/
def execCls (s : State) : Outcome := .next { s with fb := clearFramebuffer, draw := true }.advance

/-- `DXYN` (R112): the coordinates are read before VF is written; the draw flag is set always (C10). -/
def execDrw (x y : Reg) (n : Rows) (s : State) : Outcome :=
  match accessFault s.dataBase n.val with
  | some e => raise e
  | none =>
    let b := blitSprite (s.reg x).toNat (s.reg y).toNat (s.bytesAt s.dataBase n.val) s.fb
    .next (({ s with fb := b.fb, draw := true }.setFlag b.collision).advance)

end Sys2Proof.Machine
end

