-- ==== Sys2Proof/Machine/IndexMemory.lean ====
section
/-! DEFINITION. `ANNN`, `FX1E`, `FX29`, `FX33`, `FX55`, `FX65` (45_index_memory.md R170–R176). No access changes I (R176). -/

namespace Sys2Proof.Machine

/-- `ANNN` (R170). -/
def execLdI (nnn : Addr) (s : State) : Outcome := .next { s with i := addrOperand nnn }.advance

/-- `FX1E` (R171): the sum is taken exactly and reduced modulo 0x1000 (C4, D3; log 8). -/
def execAddI (x : Reg) (s : State) : Outcome :=
  let sum := s.i.toNat + (s.reg x).toNat
  .next (({ s with i := BitVec.ofNat 16 (sum % 0x1000) }.setFlag (indexOverflow s.i (s.reg x))).advance)

/-- `FX29` (R172). -/
def execLdF (x : Reg) (s : State) : Outcome := .next { s with i := glyphAddress (s.reg x) }.advance

/-- `FX33` (R173). -/
def execLdB (x : Reg) (s : State) : Outcome :=
  match accessFault s.dataBase 3 with
  | some e => raise e
  | none => .next (s.storeBytes s.dataBase (bcdDigits (s.reg x))).advance

/-- `FX55` (R174). -/
def execLdMemV (x : Reg) (s : State) : Outcome :=
  match accessFault s.dataBase (x.val + 1) with
  | some e => raise e
  | none => .next (s.storeBytes s.dataBase (s.regsUpTo x)).advance

/-- `V[k] <- mem[base + k]` for k in 0..x; the registers above x stay (R175). -/
def State.loadRegs (s : State) (base : Nat) (x : Reg) : State :=
  { s with v := Vector.ofFn fun k : Reg => if k ≤ x then s.byteAt (base + k.val) else s.reg k }

/-- `FX65` (R175). -/
def execLdVMem (x : Reg) (s : State) : Outcome :=
  match accessFault s.dataBase (x.val + 1) with
  | some e => raise e
  | none => .next (s.loadRegs s.dataBase x).advance

end Sys2Proof.Machine
end

