-- ==== Sys2Proof/Machine/RegisterAlu.lean ====
section
/-! DEFINITION. `6XNN`, `7XNN`, `8XY0`–`8XY7`, `8XYE`, `CXNN` (44_register_alu.md R140–R155). Arithmetic wraps modulo 256
(R151), which is the arithmetic of `Byte`. -/

namespace Sys2Proof.Machine

/-- The shape of a rule that writes VX and nothing else. -/
def State.setResult (s : State) (x : Reg) (w : Byte) : State := (s.setReg x w).advance

/-- The shape of a rule that writes VX and then VF (R14, D2). -/
def State.setResultFlag (s : State) (x : Reg) (w : Byte) (f : Bool) : State := ((s.setReg x w).setFlag f).advance

/-- `6XNN` (R140). -/
def execLdImm (x : Reg) (nn : Byte) (s : State) : Outcome := .next (s.setResult x nn)

/-- `7XNN` (R141): VF is not a flag here. -/
def execAddImm (x : Reg) (nn : Byte) (s : State) : Outcome := .next (s.setResult x (s.reg x + nn))

/-- `8XY0` (R142). -/
def execLdReg (x y : Reg) (s : State) : Outcome := .next (s.setResult x (s.reg y))

/-- `8XY1` (R143). -/
def execOr (x y : Reg) (s : State) : Outcome := .next (s.setResult x (s.reg x ||| s.reg y))

/-- `8XY2` (R144). -/
def execAnd (x y : Reg) (s : State) : Outcome := .next (s.setResult x (s.reg x &&& s.reg y))

/-- `8XY3` (R145). -/
def execXor (x y : Reg) (s : State) : Outcome := .next (s.setResult x (s.reg x ^^^ s.reg y))

/-- `8XY4` (R146). -/
def execAddReg (x y : Reg) (s : State) : Outcome :=
  .next (s.setResultFlag x (s.reg x + s.reg y) (carryOut (s.reg x) (s.reg y)))

/-- `8XY5` (R147). -/
def execSub (x y : Reg) (s : State) : Outcome :=
  .next (s.setResultFlag x (s.reg x - s.reg y) (noBorrow (s.reg x) (s.reg y)))

/-- `8XY6` (R148): the y field has no effect (R75). -/
def execShr (x _y : Reg) (s : State) : Outcome :=
  .next (s.setResultFlag x (s.reg x >>> 1) (bitOutRight (s.reg x)))

/-- `8XY7` (R149). -/
def execSubn (x y : Reg) (s : State) : Outcome :=
  .next (s.setResultFlag x (s.reg y - s.reg x) (noBorrow (s.reg y) (s.reg x)))

/-- `8XYE` (R150): the y field has no effect (R75). -/
def execShl (x _y : Reg) (s : State) : Outcome :=
  .next (s.setResultFlag x (s.reg x <<< 1) (bitOutLeft (s.reg x)))

/-- `CXNN` (R155): the random byte is the next free value (log 2). -/
def execRnd (x : Reg) (nn : Byte) (s : State) : Outcome :=
  .next ({ s with draws := s.draws + 1 }.setResult x (Config.rand s.draws &&& nn))

end Sys2Proof.Machine
end

