-- ==== Sys2Proof/Machine/Skips.lean ====
section
/-! DEFINITION. `3XNN`, `4XNN`, `5XY0`, `9XY0`, `EX9E`, `EXA1` (43_skips.md R130–R137). -/

namespace Sys2Proof.Machine

/-- `3XNN` (R130). -/
def execSeImm (x : Reg) (nn : Byte) (s : State) : Outcome := .next (s.skipIf (s.reg x == nn))

/-- `4XNN` (R131). -/
def execSneImm (x : Reg) (nn : Byte) (s : State) : Outcome := .next (s.skipIf (s.reg x != nn))

/-- `5XY0` (R132). -/
def execSeReg (x y : Reg) (s : State) : Outcome := .next (s.skipIf (s.reg x == s.reg y))

/-- `9XY0` (R133). -/
def execSneReg (x y : Reg) (s : State) : Outcome := .next (s.skipIf (s.reg x != s.reg y))

/-- `EX9E` (R134). -/
def execSkp (x : Reg) (s : State) : Outcome :=
  match keyIndex (s.reg x) with
  | none => raise (.invalidKeyIndex (s.reg x))
  | some k => .next (s.skipIf (s.pressed k))

/-- `EXA1` (R135). -/
def execSknp (x : Reg) (s : State) : Outcome :=
  match keyIndex (s.reg x) with
  | none => raise (.invalidKeyIndex (s.reg x))
  | some k => .next (s.skipIf (!s.pressed k))

end Sys2Proof.Machine
end

