-- ==== Sys2Proof/Machine/TimersKeys.lean ====
section
/-! DEFINITION. `FX07`, `FX0A`, `FX15`, `FX18` (46_timers_keys.md R190–R194) and the timer tick (40_cycle.md R97). -/

namespace Sys2Proof.Machine

/-- `FX07` (R190): DT as it is before this cycle's tick. -/
def execLdVDt (x : Reg) (s : State) : Outcome := .next (s.setReg x s.dt).advance

/-- `FX0A` (R191): with no key pressed it waits and changes nothing (R96); else it reports a pressed key. -/
def execLdVK (x : Reg) (s : State) : Outcome :=
  match chooseKey (Config.keyChoice s.draws) s.pressedKeys with
  | none => .next s
  | some k => .next ({ s with draws := s.draws + 1 }.setReg x (BitVec.ofNat 8 k.val)).advance

/-- `FX15` (R192). -/
def execLdDt (x : Reg) (s : State) : Outcome := .next { s with dt := s.reg x }.advance

/-- `FX18` (R193). -/
def execLdSt (x : Reg) (s : State) : Outcome := .next { s with st := s.reg x }.advance

/-- Whether executing the instruction is a wait (R93, R95, R96): `FX0A` with no key pressed, and no other. -/
def waits (i : Instr) (s : State) : Bool :=
  match i with
  | .ldVK _ => s.pressedKeys.isEmpty
  | _ => false

/-- A timer after one tick (R97): down by one, and 0 stays 0. -/
def tickDown (t : Byte) : Byte := if t = 0 then 0 else t - 1

/-- The timers after one tick (R97). -/
def State.tick (s : State) : State := { s with dt := tickDown s.dt, st := tickDown s.st }

/-- Whether the tick emits the beep (R97, R231): ST was exactly 1. -/
def State.beeps (s : State) : Bool := s.st == 1

end Sys2Proof.Machine
end

