-- ==== Sys2Proof/Machine/Cycle.lean ====
section
/-! DEFINITION. `step_cycle()` with all its outputs (40_cycle.md R90–R102, 60_exceptions.md R208, R231, R232). -/

namespace Sys2Proof.Machine

/-- What a `step_cycle` call does (R99). The beep and the wait are outputs of the call and not state (R41; log 6). -/
inductive CycleResult where
  /-- The instruction executed and the tick ran; `beep` is the beep event of R231. -/
  | completed (beep : Bool) (s : State)
  /-- `FX0A` found no key pressed: no state change, no tick (R96). -/
  | waiting (s : State)
  /-- A fatal error, and the faulted Machine it leaves behind (R208, R209). -/
  | fault (e : Fault) (s : State)
  /-- The Machine was faulted: the call has no transition (R100). -/
  | stuck
  /-- The instruction has no meaning in the model; no instruction of this model gives it. -/
  | refused (r : Refusal)
  deriving DecidableEq, Repr

/-- The big-endian word at an address (R53). -/
def State.wordAt (s : State) (a : Nat) : Word := s.byteAt a ++ s.byteAt (a + 1)

/-- Step 1 (R54): the word at PC, after the bound check on PC + 1. -/
def State.fetch (s : State) : Except Fault Word :=
  match accessFault s.pc.toNat 2 with
  | some e => .error e
  | none => .ok (s.wordAt s.pc.toNat)

/-- Steps 3 and 4 (R90): execute the decoded instruction, then tick. -/
def runInstr (i : Instr) (s : State) : CycleResult :=
  if waits i s then .waiting s
  else
    match exec i s with
    | .next t => .completed t.beeps t.tick
    | .fault e => .fault e (s.enterFault e)
    | .refused r => .refused r

/-- `step_cycle()` (R90). -/
def cycle (s : State) : CycleResult :=
  if s.faulted then .stuck
  else
    match s.fetch with
    | .error e => .fault e (s.enterFault e)
    | .ok w =>
      match decodeWord w with
      | .error _ => .fault (.unknownOpcode w) (s.enterFault (.unknownOpcode w))
      | .ok i => runInstr i s

/-- A cycle's result as the outcome of a step: the next state of a completed or a waiting cycle, the error of a faulting
one, and the stuck state's own fault (log 5, log 6). -/
def outcomeOf : CycleResult → Outcome
  | .completed _ t => .next t
  | .waiting t => .next t
  | .fault e _ => .fault e
  | .stuck => .fault .machineFaulted
  | .refused r => .refused r

/-- The state with an instruction's word stored where the next cycle fetches (big-endian, R53). The fetch needs a machine
that is not faulted (R100) and a PC whose two bytes exist (R54): where PC has none, it is set to the load address 0x200. -/
def State.placeWord (s : State) (w : Word) : State :=
  let t := if s.pc.toNat + 1 < 0x1000 then s else s.jump 0x200
  { t with faulted := false }.storeBytes t.pc.toNat (wordBytes w)

end Sys2Proof.Machine
end

