-- ==== Sys2Proof/Machine/Step.lean ====
section
/-! DEFINITION. The step of the machine: one `step_cycle()` (40_cycle.md R90), without the cycle's outputs. -/

namespace Sys2Proof.Machine

/-- One `step_cycle()`; its outputs (the beep, the wait) are in `cycle`. -/
def step (s : State) : Host.Outcome State Fault Refusal := outcomeOf (cycle s)

/-- `s` with the instruction whose bits the opcode table numbers as `w` stored where `step` fetches next. -/
def State.withFetchWord (s : State) (nbits w : Nat) : State := s.placeWord (tableWord nbits w)

end Sys2Proof.Machine
end

