-- ==== Sys2Proof/Machine/HostOps.lean ====
section
/-! DEFINITION. The core interface: the seven operations of 60_exceptions.md R226–R233 and the host's duties, with reset
and program load (70_reset_and_hazards.md R240–R247). Each call is one atomic transition between cycles (R2, R63). -/

namespace Sys2Proof.Machine

/-- The validation errors (R210): the operation fails and no state changes. -/
inductive HostError where
  /-- `load_program` with more than 3584 bytes (R206). -/
  | programTooLarge (len : Nat)
  /-- `set_key_state` with an index ≥ 16 (R205, R230). -/
  | invalidKeyIndex (index : Nat)
  deriving DecidableEq, Repr

/-- The numeric code of R200 (D16). -/
def hostErrorCode : HostError → Nat
  | .programTooLarge _ => 1
  | .invalidKeyIndex _ => 2

/-- `reset()` (R240, R241): every field of the spec's takes its reset value whatever the machine held, `faulted` among
them. The model's own fields stay: the fontset parameter, and the counter of draws, so that a run after a reset draws
afresh (log 2). -/
def State.hostReset (s : State) : State := { State.resetWith s.fontset with draws := s.draws }

/-- `load_program(bytes)` (R243, R244). -/
def State.loadProgram (bytes : List Byte) (s : State) : Except HostError State :=
  if Config.progMax < bytes.length then .error (.programTooLarge bytes.length)
  else .ok (s.storeBytes Config.progBase bytes)

/-- `read_framebuffer()` (R227). -/
def State.readFramebuffer (s : State) : Framebuffer := s.fb

/-- `draw_pending()` (R228). -/
def State.drawPending (s : State) : Bool := s.draw

/-- `clear_draw_pending()` (R229). -/
def State.clearDrawPending (s : State) : State := { s with draw := false }

/-- `set_key_state(index, pressed)` (R230). -/
def State.setKeyState (index : Nat) (pressed : Bool) (s : State) : Except HostError State :=
  if h : index < 16 then .ok { s with key := s.key.set index pressed } else .error (.invalidKeyIndex index)

/-- Where the host stands in the boot order (R246); a duty of the host's, no state of the core's (R233). -/
inductive Phase where
  /-- `reset()` has not been called: the Machine's fields are unspecified (R43). -/
  | unreset
  /-- After `reset()`, before a load and before the first `step_cycle`. -/
  | ready
  /-- After the one call of `load_program`, failed or not, before the first `step_cycle`. -/
  | loaded
  /-- After the first `step_cycle`. -/
  | running
  deriving DecidableEq, Repr

/-- One Machine and its host's place in the boot order. -/
structure Session where
  machine : State
  phase : Phase
  deriving DecidableEq, Repr

/-- A constructed Machine before its first `reset()`: any state (R43, U7; log 20). -/
def Session.construct (s : State) : Session := { machine := s, phase := .unreset }

/-- The seven operations (R226, C12). -/
inductive HostCall where
  | reset
  | loadProgram (bytes : List Byte)
  | stepCycle
  | readFramebuffer
  | drawPending
  | clearDrawPending
  | setKeyState (index : Nat) (pressed : Bool)
  deriving DecidableEq, Repr

/-- What an operation answers to its caller (R226, R232). -/
inductive HostReply where
  | done
  | failed (e : HostError)
  | completed (beep : Bool)
  | waiting
  | fault (e : Fault)
  | framebuffer (fb : Framebuffer)
  | drawFlag (draw : Bool)
  deriving DecidableEq, Repr

/-- A call of `load_program` (R233, R246, R247): it has a move only after a reset, before the first `step_cycle`, and once.
A call that fails its check leaves the machine as it was (R206, R210), and is the one call all the same (log 21). -/
def callLoadProgram (bytes : List Byte) (c : Session) : Option (Session × HostReply) :=
  match c.phase with
  | .ready =>
    match c.machine.loadProgram bytes with
    | .ok t => some ({ machine := t, phase := .loaded }, .done)
    | .error e => some ({ c with phase := .loaded }, .failed e)
  | .unreset | .loaded | .running => none

/-- A call of `step_cycle` on a machine that has been reset (R99, R100): none on a faulted machine. -/
def callStepCycle (s : State) : Option (Session × HostReply) :=
  match cycle s with
  | .completed beep t => some ({ machine := t, phase := .running }, .completed beep)
  | .waiting t => some ({ machine := t, phase := .running }, .waiting)
  | .fault e t => some ({ machine := t, phase := .running }, .fault e)
  | .stuck | .refused _ => none

/-- One call of the host's; `none` is a call that breaks a duty and has no move (R233). Before the first `reset()` only
`reset()` has one (R246). -/
def hostCall (c : Session) (call : HostCall) : Option (Session × HostReply) :=
  match call with
  | .reset => some ({ machine := c.machine.hostReset, phase := .ready }, .done)
  | .loadProgram bytes => callLoadProgram bytes c
  | .stepCycle => if c.phase = .unreset then none else callStepCycle c.machine
  | .readFramebuffer => if c.phase = .unreset then none else some (c, .framebuffer c.machine.readFramebuffer)
  | .drawPending => if c.phase = .unreset then none else some (c, .drawFlag c.machine.drawPending)
  | .clearDrawPending =>
    if c.phase = .unreset then none else some ({ c with machine := c.machine.clearDrawPending }, .done)
  | .setKeyState index pressed =>
    if c.phase = .unreset then none
    else
      match c.machine.setKeyState index pressed with
      | .ok t => some ({ c with machine := t }, .done)
      | .error e => some (c, .failed e)

/-- A sequence of calls, in order; `none` once one of them has no move. -/
def hostCalls : Session → List HostCall → Option Session
  | c, [] => some c
  | c, call :: calls =>
    match hostCall c call with
    | some (c', _) => hostCalls c' calls
    | none => none

end Sys2Proof.Machine
end

