-- ==== Sys2Proof/Safety.lean ====
section
/-! DEFINITION. What claims are stated in: the invariant of a machine that has not faulted, the frame of an instruction by
parts of the state, and the states that stand for the end of a run (40_cycle.md R101). -/

namespace Sys2Proof.Machine

/-- The invariant of every machine that a reset and then cycles lead to: memory in canonical form, I within 0x000–0xFFF
(R29), PC at most 0x10FE (R28), every return address at most 0x1000 (R123's corner case), and no fatal error yet (R208). -/
structure State.Inv (s : State) : Prop where
  mem : Memory.wf s.fontset s.mem
  index : s.i.toNat ≤ 0xFFF
  pc : s.pc.toNat ≤ 0x10FE
  stack : ∀ k : Fin 16, s.stack[k].toNat ≤ 0x1000
  running : s.faulted = false

/-! ### Frames: what two states share -/

/-- Every byte of memory reads the same. -/
def sameMemory (s t : State) : Prop := ∀ a : Nat, t.byteAt a = s.byteAt a

/-- Every byte of memory outside `base .. base + count − 1` reads the same. -/
def sameMemoryOutside (base count : Nat) (s t : State) : Prop :=
  ∀ a : Nat, a < base ∨ base + count ≤ a → t.byteAt a = s.byteAt a

/-- Every register but those listed is the same. -/
def sameRegsBut (xs : List Reg) (s t : State) : Prop := ∀ r : Reg, r ∉ xs → t.reg r = s.reg r

/-- The framebuffer and the draw flag are the same. -/
def sameDisplay (s t : State) : Prop := t.fb = s.fb ∧ t.draw = s.draw

/-- The call stack and its pointer are the same. -/
def sameStack (s t : State) : Prop := t.stack = s.stack ∧ t.sp = s.sp

/-- Both timers are the same. -/
def sameTimers (s t : State) : Prop := t.dt = s.dt ∧ t.st = s.st

/-- What no instruction writes: the key state (R36), the mark of a fatal error, and the fontset (R37). -/
def sameFixed (s t : State) : Prop := t.key = s.key ∧ t.faulted = s.faulted ∧ t.fontset = s.fontset

/-- Everything but the registers, PC and the model's own counter of draws is the same. -/
def sameButRegs (s t : State) : Prop :=
  t.i = s.i ∧ sameMemory s t ∧ sameDisplay s t ∧ sameStack s t ∧ sameTimers s t ∧ sameFixed s t

/-- The frame of an instruction that writes registers alone: all but the registers listed and PC is the same. -/
def onlyRegs (xs : List Reg) (s t : State) : Prop :=
  sameRegsBut xs s t ∧ sameButRegs s t

/-! ### Sprites -/

/-- A set bit of a sprite lands on pixel (px, py): its row `r`, column `c`, with the top left pixel at (x0, y0) (R111,
R113). -/
def spriteHits (x0 y0 : Nat) (rows : List Byte) (px : Fin 64) (py : Fin 32) : Prop :=
  ∃ r c : Nat, r < rows.length ∧ c < 8 ∧ (rows.getD r 0).getLsbD (7 - c) = true ∧
    px.val = (x0 + c) % 64 ∧ py.val = (y0 + r) % 32

/-! ### The end of a run (R101) -/

/-- The opcode at PC, where the fetch succeeds, is `1NNN` with NNN = PC (the halt idiom, R17). -/
def State.atSelfJump (s : State) : Prop :=
  s.pc.toNat + 1 < 0x1000 ∧
    ∃ nnn : Addr, decodeWord (s.wordAt s.pc.toNat) = .ok (.jp nnn) ∧ nnn.toNat = s.pc.toNat

/-- A machine that is not faulted and stands at the halt idiom: halted or spinning. -/
def State.atHaltIdiom (s : State) : Prop := s.faulted = false ∧ s.atSelfJump

/-- A halted machine (R101). -/
def State.halted (s : State) : Prop := s.atHaltIdiom ∧ s.dt = 0 ∧ s.st = 0

/-- A spinning machine (R101). -/
def State.spinning (s : State) : Prop := s.atHaltIdiom ∧ (s.dt ≠ 0 ∨ s.st ≠ 0)

/-- A key-blocked machine (R101). -/
def State.keyBlocked (s : State) : Prop :=
  s.faulted = false ∧ s.pc.toNat + 1 < 0x1000 ∧
    (∃ x : Reg, decodeWord (s.wordAt s.pc.toNat) = .ok (.ldVK x)) ∧ ∀ k : Fin 16, s.pressed k = false

/-! ### Encodings and sequences -/

/-- The instruction's word equals the rule's pattern under its mask, and decodes to the instruction (00_scope.md R16's
encoding item). -/
def encodedAs (i : Instr) (mask pattern : Word) : Prop := encode i &&& mask = pattern ∧ decodeWord (encode i) = .ok i

/-- The next cycle's fetch lies outside memory, so that the step is the fetch's error. -/
def nextFetchFails (t : State) : Prop := ∃ a : Nat, step t = .fault (.memoryOutOfBounds a)

/-- `2NNN` executed for each target in turn, with no return between: nested calls. -/
def callAll : List Addr → State → Option State
  | [], s => some s
  | nnn :: rest, s =>
    match exec (.call nnn) s with
    | .next t => callAll rest t
    | .fault _ | .refused _ => none

/-! ### Registers an instruction reads and writes (10_state.md R24) -/

/-- V0..VX. -/
def regsThrough (x : Reg) : List Reg := (List.finRange 16).filter (· ≤ x)

/-- R24's column "reads". -/
def readsOf : Instr → List Reg
  | .cls | .ret | .jp _ | .call _ | .ldI _ => []
  | .seImm x _ | .sneImm x _ | .addImm x _ => [x]
  | .seReg x y | .sneReg x y => [x, y]
  | .ldImm _ _ | .rnd _ _ => []
  | .ldReg _ y => [y]
  | .or x y | .and x y | .xor x y | .addReg x y | .sub x y | .subn x y => [x, y]
  | .shr x _ | .shl x _ => [x]
  | .jpV0 _ => [0]
  | .drw x y _ => [x, y]
  | .skp x | .sknp x => [x]
  | .ldVDt _ | .ldVK _ => []
  | .ldDt x | .ldSt x | .ldF x | .ldB x | .addI x => [x]
  | .ldMemV x => regsThrough x
  | .ldVMem _ => []

/-- R24's column "writes". -/
def writesOf : Instr → List Reg
  | .cls | .ret | .jp _ | .call _ | .ldI _ | .jpV0 _ => []
  | .seImm _ _ | .sneImm _ _ | .seReg _ _ | .sneReg _ _ | .skp _ | .sknp _ => []
  | .ldImm x _ | .addImm x _ | .rnd x _ => [x]
  | .ldReg x _ | .or x _ | .and x _ | .xor x _ => [x]
  | .addReg x _ | .sub x _ | .subn x _ | .shr x _ | .shl x _ => [x, regVF]
  | .drw _ _ _ | .addI _ => [regVF]
  | .ldVDt x | .ldVK x => [x]
  | .ldDt _ | .ldSt _ | .ldF _ | .ldB _ | .ldMemV _ => []
  | .ldVMem x => regsThrough x

/-- Two states equal in everything but the general registers. -/
def agreeButRegs (s t : State) : Prop := { s with v := t.v } = t

end Sys2Proof.Machine
end

