-- ==== Sys2Proof/Certificates/Slice0/Obligations.lean ====
section
/-! DEFINITION. The statements for the provers, each from the rules of spec/ its docstring names. "D<n>" is a decision of
92_eei_decisions.md, which is the spec's own choice and no source's; "log n" is notes/assumptions/n.md. -/

open Sys2Proof Sys2Proof.Machine

/-! ### Reset and the invariant -/

/-- R42: every field after `reset()`, whatever the machine held before and whatever the fontset (R9), both for the host's
operation and for the state the interface starts from; and `load_program` then changes memory from 0x200 on only. -/
def Obligations.ResetGivesEveryFieldItsValue : Prop :=
  ∀ s r : State, (r = s.hostReset ∨ r = State.resetWith s.fontset) →
    (∀ a : Fin 80, r.byteAt a.val = s.fontset[a]) ∧
    (∀ a : Nat, 0x050 ≤ a → a ≤ 0xFFF → r.byteAt a = 0) ∧
    (∀ x : Reg, r.reg x = 0) ∧ r.i = 0 ∧ r.pc = 0x200 ∧ r.sp = 0 ∧ (∀ k : Fin 16, r.stack[k] = 0) ∧
    r.dt = 0 ∧ r.st = 0 ∧ (∀ (x : Fin 64) (y : Fin 32), pixelAt r.fb x y = false) ∧ r.draw = false ∧
    (∀ k : Fin 16, r.pressed k = false) ∧ r.faulted = false ∧
    (∀ (bytes : List Byte) (t : State), r.loadProgram bytes = .ok t →
      { t with mem := r.mem } = r ∧ ∀ a : Nat, a < 0x200 → t.byteAt a = r.byteAt a)

/-- The invariant (memory canonical, I ≤ 0xFFF, PC ≤ 0x10FE, return addresses ≤ 0x1000, not faulted) holds after reset,
with any fontset. -/
def Obligations.ResetStateMeetsTheInvariant : Prop := ∀ font : Vector Byte 80, (State.resetWith font).Inv

/-- The invariant (R28, R29; the canonical form of memory; no fatal error yet) is kept by every step, from every state that
has it. I's bound past `FX1E` rests on D3 (log 8). -/
def Obligations.StepKeepsTheInvariant : Prop := ∀ s t : State, s.Inv → step s = .next t → t.Inv

/-- Every operation of the core interface (R226) leads from a session whose machine is unreset, faulted, or meets the
invariant to one of the same. -/
def Obligations.HostCallsKeepTheInvariant : Prop :=
  ∀ (c c' : Session) (call : HostCall) (r : HostReply),
    (c.phase = .unreset ∨ c.machine.faulted = true ∨ c.machine.Inv) → hostCall c call = some (c', r) →
    (c'.phase = .unreset ∨ c'.machine.faulted = true ∨ c'.machine.Inv)

/-- Two memories in canonical form (for one fontset) that read the same at every address are the same data. -/
def Obligations.CanonicalMemoriesThatReadAlikeAreEqual : Prop :=
  ∀ (font : Vector Byte 80) (m m' : Memory), Memory.wf font m → Memory.wf font m' →
    (∀ a : Nat, a < 0x1000 → Memory.read font m a = Memory.read font m' a) → m = m'

/-! ### Encoding -/

/-- Every instruction is well formed and its word, alone and at the head of a byte string, decodes to it with every operand
at every value, the ignored y of `8XY6` and `8XYE` among them (R70–R77). -/
def Obligations.DecodeOfEncodeIsTheInstruction : Prop :=
  ∀ i : Instr, i.wf = true ∧ decodeWord (encode i) = .ok i ∧
    ∀ rest : List Byte, decode (encodeBytes i ++ rest) = .ok (i, rest)

/-- Every word that decodes is the encoding of what it decodes to: no bit of an opcode is dropped (R71, R77). -/
def Obligations.EncodeOfDecodeIsTheWord : Prop := ∀ (w : Word) (i : Instr), decodeWord w = .ok i → encode i = w

/-- R77: a word that decodes matches the row of its instruction's mnemonic in the opcode table and no other row; a word that
does not decode matches no row and is answered with the unknown opcode that names it. -/
def Obligations.DecoderFollowsTheOpcodeTable : Prop :=
  ∀ w : Word,
    (∀ i : Instr, decodeWord w = .ok i →
      ∀ r ∈ opcodeTable, rowMatches r w = true ↔ r.mnemonic = mnemonicOf i) ∧
    (∀ e : DecodeError, decodeWord w = .error e →
      e = .unknownOpcode w ∧ ∀ r ∈ opcodeTable, rowMatches r w = false)

/-- R78's table (D4): the unknown words, family by family, and no others. -/
def Obligations.UnknownOpcodesAreTheListedWords : Prop :=
  ∀ w : Word, decodeWord w = .error (.unknownOpcode w) ↔
    (w.toNat / 0x1000 = 0 ∧ w.toNat ≠ 0x00E0 ∧ w.toNat ≠ 0x00EE) ∨
    (w.toNat / 0x1000 = 5 ∧ w.toNat % 0x10 ≠ 0) ∨
    (w.toNat / 0x1000 = 8 ∧ w.toNat % 0x10 ∈ [0x8, 0x9, 0xA, 0xB, 0xC, 0xD, 0xF]) ∨
    (w.toNat / 0x1000 = 9 ∧ w.toNat % 0x10 ≠ 0) ∨
    (w.toNat / 0x1000 = 0xE ∧ w.toNat % 0x100 ∉ [0x9E, 0xA1]) ∨
    (w.toNat / 0x1000 = 0xF ∧
      w.toNat % 0x100 ∉ [0x07, 0x0A, 0x15, 0x18, 0x1E, 0x29, 0x33, 0x55, 0x65])

/-- Some words of 95_test_vectors.md section 2 decode as it says. -/
def Obligations.SampleWordsDecode : Prop :=
  decodeWord 0x00E0 = .ok .cls ∧ decodeWord 0x1ABC = .ok (.jp 0xABC) ∧ decodeWord 0x5120 = .ok (.seReg 1 2) ∧
  decodeWord 0x8016 = .ok (.shr 0 1) ∧ decodeWord 0xD123 = .ok (.drw 1 2 3) ∧ decodeWord 0xE3A1 = .ok (.sknp 3) ∧
  decodeWord 0xF565 = .ok (.ldVMem 5) ∧ decodeWord 0x5121 = .error (.unknownOpcode 0x5121) ∧
  decodeWord 0x0123 = .error (.unknownOpcode 0x0123)

/-! ### The cycle -/

/-- R90: on a machine that is not faulted and whose PC is in range, when the two bytes at PC decode to an instruction, the
step is the execution of that instruction at that state and then the tick; a waiting instruction leaves the state as it is
(that the step is then a next state is the model's choice, log 6); and an instruction's error is the step's error. -/
def Obligations.StepRunsTheDecodedInstruction : Prop :=
  ∀ (s : State) (i : Instr), s.faulted = false → s.pc.toNat + 1 < 0x1000 →
    decodeWord (s.byteAt s.pc.toNat ++ s.byteAt (s.pc.toNat + 1)) = .ok i →
    (waits i s = true → step s = .next s ∧ cycle s = .waiting s) ∧
    (waits i s = false →
      (∀ t : State, exec i s = .next t → step s = .next t.tick ∧ cycle s = .completed t.beeps t.tick) ∧
      (∀ e : Fault, exec i s = .fault e → step s = .fault e ∧ cycle s = .fault e (s.enterFault e)))

/-- The errors of fetch and decode, in their order (R54, R78, R211), with the info D16 gives them. -/
def Obligations.FetchAndDecodeErrorsStopTheStep : Prop :=
  ∀ s : State, s.faulted = false →
    (0x1000 ≤ s.pc.toNat + 1 → step s = .fault (.memoryOutOfBounds (max s.pc.toNat 0x1000))) ∧
    (s.pc.toNat + 1 < 0x1000 →
      (∀ i : Instr, decodeWord (s.byteAt s.pc.toNat ++ s.byteAt (s.pc.toNat + 1)) ≠ .ok i) →
      step s = .fault (.unknownOpcode (s.byteAt s.pc.toNat ++ s.byteAt (s.pc.toNat + 1))))

/-- R208, R100, R240 (D5; the fault `machineFaulted` of step is the model's choice, log 5): a cycle that raises a fatal error is
the step's fault and leaves a faulted machine, which has no cycle, no step and no `step_cycle` move, whatever its host's phase.
Every other call but `reset()` that has a move on it (that display and key calls have one is the model's choice, log 28) leaves
it faulted, and `reset()` makes it one that is not. -/
def Obligations.FatalErrorLeavesAMachineWithoutAStep : Prop :=
  ∀ (s u : State) (e : Fault), cycle s = .fault e u →
    step s = .fault e ∧ u.faulted = true ∧ cycle u = .stuck ∧ step u = .fault .machineFaulted ∧
    (∀ p : Phase, hostCall { machine := u, phase := p } .stepCycle = none) ∧
    (∀ (p : Phase) (call : HostCall) (c' : Session) (r : HostReply), call ≠ .reset →
      hostCall { machine := u, phase := p } call = some (c', r) → c'.machine.faulted = true) ∧
    u.hostReset.faulted = false

/-- R97: the tick takes each timer that is not 0 down by one, leaves one at 0, changes nothing else, and beeps exactly when
the sound timer was 1; a cycle beeps by its tick alone, and an `FX18` that writes 0 leaves nothing to beep. -/
def Obligations.TickCountsDownAndBeeps : Prop :=
  ∀ s : State,
    (0 < s.dt.toNat → s.tick.dt.toNat + 1 = s.dt.toNat) ∧ (s.dt.toNat = 0 → s.tick.dt = 0) ∧
    (0 < s.st.toNat → s.tick.st.toNat + 1 = s.st.toNat) ∧ (s.st.toNat = 0 → s.tick.st = 0) ∧
    { s.tick with dt := s.dt, st := s.st } = s ∧ (s.beeps = true ↔ s.st.toNat = 1) ∧
    (∀ (beep : Bool) (u : State), cycle s = .completed beep u → ∃ t : State, beep = t.beeps ∧ u = t.tick) ∧
    (∀ x : Reg, s.reg x = 0 → ∃ t : State, exec (.ldSt x) s = .next t ∧ t.beeps = false)

/-- R94, R231: a completed cycle is one instruction and then one tick: its timers are one below those the instruction left
(0 stays 0), the rest is as the instruction left it, and it beeps exactly when the instruction left ST at 1. -/
def Obligations.CompletedCycleTicksOnce : Prop :=
  ∀ (s u : State) (beep : Bool), cycle s = .completed beep u →
    ∃ (i : Instr) (t : State), decodeWord (s.wordAt s.pc.toNat) = .ok i ∧ exec i s = .next t ∧
      u.dt.toNat = t.dt.toNat - 1 ∧ u.st.toNat = t.st.toNat - 1 ∧ { u with dt := t.dt, st := t.st } = t ∧
      (beep = true ↔ t.st.toNat = 1)

/-- R95, R96 (D13): a cycle waits exactly on a key-blocked machine (R101), and then changes nothing. -/
def Obligations.CycleWaitsExactlyWhenKeyBlocked : Prop :=
  ∀ s u : State, cycle s = .waiting u ↔ s.keyBlocked ∧ u = s

/-- R101 (D19): a cycle of a halted machine completes without a beep and leaves every field as it is. -/
def Obligations.HaltedMachineStaysAsItIs : Prop := ∀ s : State, s.halted → cycle s = .completed false s

/-- R101 (D19): a machine at the halt idiom is halted after max(DT, ST) cycles, with nothing changed but the timers, and not
before. -/
def Obligations.SpinningMachineHaltsWhenItsTimersRunOut : Prop :=
  ∀ s : State, s.atHaltIdiom →
    Host.Core.run Sys2Proof.core (max s.dt.toNat s.st.toNat) s = .next { s with dt := 0, st := 0 } ∧
    ({ s with dt := 0, st := 0 } : State).halted ∧
    ∀ n : Nat, n < max s.dt.toNat s.st.toNat →
      ∃ u : State, Host.Core.run Sys2Proof.core n s = .next u ∧ u.spinning ∧ { u with dt := s.dt, st := s.st } = s

/-! ### Display -/

/-- R110: `00E0`. -/
def Obligations.ClsClearsTheFramebuffer : Prop :=
  ∀ s : State, encodedAs .cls 0xFFFF 0x00E0 ∧
    ∃ t : State, exec .cls s = .next t ∧ (∀ (x : Fin 64) (y : Fin 32), pixelAt t.fb x y = false) ∧ t.draw = true ∧
      t.pc = s.pc + 2 ∧ sameRegsBut [] s t ∧ t.i = s.i ∧ sameMemory s t ∧ sameStack s t ∧ sameTimers s t ∧
      sameFixed s t

/-- R112 with R111, R113, R114 (D2, D9, D10): a sprite whose rows lie in memory is drawn: exactly the pixels its set bits hit
are flipped, VF tells whether one of them was set, and the draw flag is set always. -/
def Obligations.DrwXorsTheSprite : Prop :=
  ∀ (x y : Reg) (n : Rows) (s : State), n.val = 0 ∨ s.i.toNat + n.val ≤ 0x1000 →
    ∃ t : State, exec (.drw x y n) s = .next t ∧
      (∀ (px : Fin 64) (py : Fin 32),
        (spriteHits (s.reg x).toNat (s.reg y).toNat (s.bytesAt s.i.toNat n.val) px py →
          pixelAt t.fb px py = !pixelAt s.fb px py) ∧
        (¬ spriteHits (s.reg x).toNat (s.reg y).toNat (s.bytesAt s.i.toNat n.val) px py →
          pixelAt t.fb px py = pixelAt s.fb px py)) ∧
      ((∃ (px : Fin 64) (py : Fin 32),
          spriteHits (s.reg x).toNat (s.reg y).toNat (s.bytesAt s.i.toNat n.val) px py ∧
          pixelAt s.fb px py = true) → t.reg regVF = 1) ∧
      ((¬ ∃ (px : Fin 64) (py : Fin 32),
          spriteHits (s.reg x).toNat (s.reg y).toNat (s.bytesAt s.i.toNat n.val) px py ∧
          pixelAt s.fb px py = true) → t.reg regVF = 0) ∧
      t.draw = true ∧ t.pc = s.pc + 2 ∧ sameRegsBut [regVF] s t ∧ t.i = s.i ∧ sameMemory s t ∧ sameStack s t ∧
      sameTimers s t ∧ sameFixed s t

/-- 95_test_vectors.md W6 (D2, D9): a sprite drawn twice at the same coordinates leaves the framebuffer as it was, and the
second draw reports a collision exactly when a set bit hits a pixel that was clear at first. The coordinates are not in VF,
which the first draw writes. -/
def Obligations.DrawingASpriteTwiceErasesIt : Prop :=
  ∀ (x y : Reg) (n : Rows) (s : State), x ≠ regVF → y ≠ regVF → s.i.toNat + n.val ≤ 0x1000 →
    ∃ t u : State, exec (.drw x y n) s = .next t ∧ exec (.drw x y n) t = .next u ∧ u.fb = s.fb ∧
      (u.reg regVF = 1 ↔ ∃ (px : Fin 64) (py : Fin 32),
        spriteHits (s.reg x).toNat (s.reg y).toNat (s.bytesAt s.i.toNat n.val) px py ∧ pixelAt s.fb px py = false)

/-! ### Control flow -/

/-- R121: `1NNN`. -/
def Obligations.JpSetsThePc : Prop :=
  ∀ (nnn : Addr) (s : State), encodedAs (.jp nnn) 0xF000 0x1000 ∧
    ∃ t : State, exec (.jp nnn) s = .next t ∧ t.pc.toNat = nnn.toNat ∧ onlyRegs [] s t ∧
      (nnn.toNat = 0xFFF → s.faulted = false → nextFetchFails t)

/-- R124: `BNNN`; the sum is exact, not reduced modulo 0x1000. -/
def Obligations.JpV0AddsV0ToTheTarget : Prop :=
  ∀ (nnn : Addr) (s : State), encodedAs (.jpV0 nnn) 0xF000 0xB000 ∧
    ∃ t : State, exec (.jpV0 nnn) s = .next t ∧ t.pc.toNat = nnn.toNat + (s.reg 0).toNat ∧ t.pc.toNat ≤ 0x10FE ∧
      onlyRegs [] s t ∧ (0xFFE < t.pc.toNat → s.faulted = false → nextFetchFails t)

/-- R123, R122 (D24 for the order and the slot, D16 for the error's info): `2NNN`. -/
def Obligations.CallPushesTheReturnAddress : Prop :=
  ∀ (nnn : Addr) (s : State), encodedAs (.call nnn) 0xF000 0x2000 ∧
    (s.sp.val < 16 →
      ∃ t : State, exec (.call nnn) s = .next t ∧ t.pc.toNat = nnn.toNat ∧ t.sp.val = s.sp.val + 1 ∧
        (∀ k : Fin 16, (k.val = s.sp.val → t.stack[k] = s.pc + 2) ∧ (k.val ≠ s.sp.val → t.stack[k] = s.stack[k])) ∧
        sameRegsBut [] s t ∧ t.i = s.i ∧ sameMemory s t ∧ sameDisplay s t ∧ sameTimers s t ∧ sameFixed s t) ∧
    (s.sp.val = 16 → exec (.call nnn) s = .fault (.stackOverflow s.pc))

/-- R120, R122 (D24 for the order and the slot, D16 for the error's info): `00EE`. -/
def Obligations.RetPopsTheReturnAddress : Prop :=
  ∀ s : State, encodedAs .ret 0xFFFF 0x00EE ∧
    (0 < s.sp.val →
      ∃ t : State, exec .ret s = .next t ∧ t.sp.val + 1 = s.sp.val ∧ t.stack = s.stack ∧
        (∀ k : Fin 16, k.val + 1 = s.sp.val → t.pc = s.stack[k]) ∧
        sameRegsBut [] s t ∧ t.i = s.i ∧ sameMemory s t ∧ sameDisplay s t ∧ sameTimers s t ∧ sameFixed s t) ∧
    (s.sp.val = 0 → exec .ret s = .fault (.stackUnderflow s.pc))

/-- R120, R123: a return right after a call comes back to the instruction after it, and the occupied slots, SP and all else
are as before the call. -/
def Obligations.ReturnComesBackFromACall : Prop :=
  ∀ (nnn : Addr) (s : State), s.sp.val < 16 →
    ∃ t u : State, exec (.call nnn) s = .next t ∧ exec .ret t = .next u ∧ u.pc = s.pc + 2 ∧ u.sp = s.sp ∧
      (∀ k : Fin 16, k.val < s.sp.val → u.stack[k] = s.stack[k]) ∧ { u with pc := s.pc, stack := s.stack } = s

/-- R123's corner case, 95_test_vectors.md W7: calls nest as long as the stack has slots, each taking one, and the call after
the sixteenth overflows. -/
def Obligations.CallsNestUntilTheStackIsFull : Prop :=
  ∀ (targets : List Addr) (s : State), s.sp.val + targets.length ≤ 16 →
    ∃ t : State, callAll targets s = some t ∧ t.sp.val = s.sp.val + targets.length ∧
      (∀ k : Fin 16, k.val < s.sp.val → t.stack[k] = s.stack[k]) ∧
      (s.sp.val + targets.length = 16 → ∀ nnn : Addr, exec (.call nnn) t = .fault (.stackOverflow t.pc))

/-! ### Skips -/

/-- R130, R131, R132, R133, R136: the skips on registers and immediates. -/
def Obligations.CompareSkipsMoveThePcByFourOrTwo : Prop :=
  ∀ (x y : Reg) (nn : Byte) (s : State),
    encodedAs (.seImm x nn) 0xF000 0x3000 ∧ encodedAs (.sneImm x nn) 0xF000 0x4000 ∧
    encodedAs (.seReg x y) 0xF00F 0x5000 ∧ encodedAs (.sneReg x y) 0xF00F 0x9000 ∧
    ∀ (i : Instr) (taken : Prop),
      (i = .seImm x nn ∧ taken = (s.reg x = nn)) ∨ (i = .sneImm x nn ∧ taken = (s.reg x ≠ nn)) ∨
      (i = .seReg x y ∧ taken = (s.reg x = s.reg y)) ∨ (i = .sneReg x y ∧ taken = (s.reg x ≠ s.reg y)) →
      ∃ t : State, exec i s = .next t ∧ (taken → t.pc = s.pc + 4) ∧ (¬ taken → t.pc = s.pc + 2) ∧ onlyRegs [] s t ∧
        (0xFFE < t.pc.toNat → s.faulted = false → nextFetchFails t)

/-- R134, R135, R137 (D11): the skips on a key, for a register that names one; and the fatal error for one that does not. -/
def Obligations.KeySkipsTestTheKeyOrFault : Prop :=
  ∀ (x : Reg) (s : State),
    (∀ k : Fin 16, (s.reg x).toNat = k.val →
      (∃ t : State, exec (.skp x) s = .next t ∧ (s.pressed k = true → t.pc = s.pc + 4) ∧
        (s.pressed k = false → t.pc = s.pc + 2) ∧ onlyRegs [] s t) ∧
      (∃ t : State, exec (.sknp x) s = .next t ∧ (s.pressed k = false → t.pc = s.pc + 4) ∧
        (s.pressed k = true → t.pc = s.pc + 2) ∧ onlyRegs [] s t)) ∧
    (16 ≤ (s.reg x).toNat → exec (.skp x) s = .fault (.invalidKeyIndex (s.reg x)) ∧
      exec (.sknp x) s = .fault (.invalidKeyIndex (s.reg x)))

/-! ### Registers and arithmetic -/

/-- R140: `6XNN`. -/
def Obligations.LoadImmediateWritesTheByte : Prop :=
  ∀ (x : Reg) (nn : Byte) (s : State), encodedAs (.ldImm x nn) 0xF000 0x6000 ∧
    ∃ t : State, exec (.ldImm x nn) s = .next t ∧ t.reg x = nn ∧ t.pc = s.pc + 2 ∧ onlyRegs [x] s t

/-- R141: `7XNN` wraps modulo 256 and touches VF only as its destination. -/
def Obligations.AddImmediateWrapsWithoutAFlag : Prop :=
  ∀ (x : Reg) (nn : Byte) (s : State), encodedAs (.addImm x nn) 0xF000 0x7000 ∧
    ∃ t : State, exec (.addImm x nn) s = .next t ∧ (t.reg x).toNat = ((s.reg x).toNat + nn.toNat) % 256 ∧
      t.pc = s.pc + 2 ∧ onlyRegs [x] s t

/-- R142: `8XY0`. -/
def Obligations.LoadRegisterCopies : Prop :=
  ∀ (x y : Reg) (s : State), encodedAs (.ldReg x y) 0xF00F 0x8000 ∧
    ∃ t : State, exec (.ldReg x y) s = .next t ∧ t.reg x = s.reg y ∧ t.pc = s.pc + 2 ∧ onlyRegs [x] s t

/-- R143, R144, R145 (D8: VF is not cleared): `8XY1`, `8XY2`, `8XY3`, bit by bit. -/
def Obligations.LogicInstructionsWorkBitByBit : Prop :=
  ∀ (x y : Reg) (s : State) (i : Instr) (f : Bool → Bool → Bool),
    (i = .or x y ∧ f = or) ∨ (i = .and x y ∧ f = and) ∨ (i = .xor x y ∧ f = Bool.xor) →
    ∃ t : State, exec i s = .next t ∧
      (∀ k : Nat, k < 8 → (t.reg x).getLsbD k = f ((s.reg x).getLsbD k) ((s.reg y).getLsbD k)) ∧
      t.pc = s.pc + 2 ∧ onlyRegs [x] s t

/-- R146, R39 (D2: VF is written last, so that with X = F it ends as the carry): `8XY4`. -/
def Obligations.AddReportsTheCarryInVF : Prop :=
  ∀ (x y : Reg) (s : State),
    ∃ t : State, exec (.addReg x y) s = .next t ∧
      (x ≠ regVF → (t.reg x).toNat = ((s.reg x).toNat + (s.reg y).toNat) % 256) ∧
      (255 < (s.reg x).toNat + (s.reg y).toNat → t.reg regVF = 1) ∧
      ((s.reg x).toNat + (s.reg y).toNat ≤ 255 → t.reg regVF = 0) ∧ t.pc = s.pc + 2 ∧ onlyRegs [x, regVF] s t

/-- R147, R149, R39 (D2): `8XY5` and `8XY7`; VF = 1 exactly when there is no borrow. -/
def Obligations.SubtractionsReportNoBorrowInVF : Prop :=
  ∀ (x y : Reg) (s : State) (i : Instr) (p q : Byte),
    (i = .sub x y ∧ p = s.reg x ∧ q = s.reg y) ∨ (i = .subn x y ∧ p = s.reg y ∧ q = s.reg x) →
    ∃ t : State, exec i s = .next t ∧
      (x ≠ regVF → ((t.reg x).toNat : Int) = ((p.toNat : Int) - (q.toNat : Int)) % 256) ∧
      (q.toNat ≤ p.toNat → t.reg regVF = 1) ∧ (p.toNat < q.toNat → t.reg regVF = 0) ∧
      t.pc = s.pc + 2 ∧ onlyRegs [x, regVF] s t

/-- R148, R150, R75, R39 (D2, D8): `8XY6` and `8XYE` shift VX by one and put the bit shifted out in VF, whatever y is. -/
def Obligations.ShiftsPutTheBitShiftedOutInVF : Prop :=
  ∀ (x y : Reg) (s : State),
    (∃ t : State, exec (.shr x y) s = .next t ∧ (x ≠ regVF → (t.reg x).toNat = (s.reg x).toNat / 2) ∧
      (t.reg regVF).toNat = (s.reg x).toNat % 2 ∧ t.pc = s.pc + 2 ∧ onlyRegs [x, regVF] s t) ∧
    (∃ t : State, exec (.shl x y) s = .next t ∧ (x ≠ regVF → (t.reg x).toNat = (s.reg x).toNat * 2 % 256) ∧
      (t.reg regVF).toNat = (s.reg x).toNat / 128 ∧ t.pc = s.pc + 2 ∧ onlyRegs [x, regVF] s t)

/-- R155 (D15; the counter of draws is the model's, log 2): `CXNN` writes the byte drawn, masked by NN, whatever the draw; the next draw is another one. -/
def Obligations.RandomByteIsMasked : Prop :=
  ∀ (x : Reg) (nn : Byte) (s : State),
    ∃ t : State, exec (.rnd x nn) s = .next t ∧
      (∀ k : Nat, k < 8 → (t.reg x).getLsbD k = ((Config.rand s.draws).getLsbD k && nn.getLsbD k)) ∧
      t.draws = s.draws + 1 ∧ t.pc = s.pc + 2 ∧ onlyRegs [x] s t

/-! ### Index register and memory -/

/-- R170: `ANNN`. -/
def Obligations.LoadIndexWritesTheAddress : Prop :=
  ∀ (nnn : Addr) (s : State), encodedAs (.ldI nnn) 0xF000 0xA000 ∧
    ∃ t : State, exec (.ldI nnn) s = .next t ∧ t.i.toNat = nnn.toNat ∧ t.pc = s.pc + 2 ∧ sameRegsBut [] s t ∧
      sameMemory s t ∧ sameDisplay s t ∧ sameStack s t ∧ sameTimers s t ∧ sameFixed s t

/-- R171, R39 (D3: the sum is reduced modulo 0x1000; D2: VF is written last): `FX1E`. -/
def Obligations.AddToIndexReportsOverflowInVF : Prop :=
  ∀ (x : Reg) (s : State),
    ∃ t : State, exec (.addI x) s = .next t ∧ t.i.toNat = (s.i.toNat + (s.reg x).toNat) % 0x1000 ∧
      (0xFFF < s.i.toNat + (s.reg x).toNat → t.reg regVF = 1) ∧
      (s.i.toNat + (s.reg x).toNat ≤ 0xFFF → t.reg regVF = 0) ∧ t.pc = s.pc + 2 ∧ sameRegsBut [regVF] s t ∧
      sameMemory s t ∧ sameDisplay s t ∧ sameStack s t ∧ sameTimers s t ∧ sameFixed s t

/-- R172: `FX29`; VX ≥ 16 is not reduced. -/
def Obligations.LoadGlyphAddressIsFiveTimesVX : Prop :=
  ∀ (x : Reg) (s : State), encodedAs (.ldF x) 0xF0FF 0xF029 ∧
    ∃ t : State, exec (.ldF x) s = .next t ∧ t.i.toNat = 5 * (s.reg x).toNat ∧ t.pc = s.pc + 2 ∧ sameRegsBut [] s t ∧
      sameMemory s t ∧ sameDisplay s t ∧ sameStack s t ∧ sameTimers s t ∧ sameFixed s t

/-- R173, R58: `FX33` stores the hundreds, tens and ones at I, I + 1, I + 2, anywhere in memory, and nothing else. -/
def Obligations.StoreBcdWritesThreeDigits : Prop :=
  ∀ (x : Reg) (s : State), Memory.wf s.fontset s.mem → s.i.toNat + 2 ≤ 0xFFF →
    ∃ t : State, exec (.ldB x) s = .next t ∧
      (t.byteAt s.dataBase).toNat = (s.reg x).toNat / 100 ∧
      (t.byteAt (s.dataBase + 1)).toNat = (s.reg x).toNat / 10 % 10 ∧
      (t.byteAt (s.dataBase + 2)).toNat = (s.reg x).toNat % 10 ∧ s.dataBase = s.i.toNat ∧
      sameMemoryOutside s.dataBase 3 s t ∧ t.pc = s.pc + 2 ∧ sameRegsBut [] s t ∧ t.i = s.i ∧ sameDisplay s t ∧
      sameStack s t ∧ sameTimers s t ∧ sameFixed s t

/-- R174 (D8: I is unchanged): `FX55` stores V0..VX from I on and nothing else. -/
def Obligations.StoreRegistersWritesThemFromI : Prop :=
  ∀ (x : Reg) (s : State), Memory.wf s.fontset s.mem → s.i.toNat + x.val ≤ 0xFFF →
    ∃ t : State, exec (.ldMemV x) s = .next t ∧ (∀ k : Reg, k ≤ x → t.byteAt (s.dataBase + k.val) = s.reg k) ∧
      s.dataBase = s.i.toNat ∧ sameMemoryOutside s.dataBase (x.val + 1) s t ∧ t.pc = s.pc + 2 ∧ sameRegsBut [] s t ∧
      t.i = s.i ∧ sameDisplay s t ∧ sameStack s t ∧ sameTimers s t ∧ sameFixed s t

/-- R175 (D8: I is unchanged): `FX65` loads V0..VX from I on; the registers above X are unchanged. -/
def Obligations.LoadRegistersReadsThemFromI : Prop :=
  ∀ (x : Reg) (s : State), s.i.toNat + x.val ≤ 0xFFF →
    ∃ t : State, exec (.ldVMem x) s = .next t ∧ (∀ k : Reg, k ≤ x → t.reg k = s.byteAt (s.i.toNat + k.val)) ∧
      t.pc = s.pc + 2 ∧ onlyRegs (regsThrough x) s t

/-- R57, R201 (D16 for the info): where I is within its range (R29), an access whose last byte lies above 0xFFF is the fatal
error, before any byte moves; `DXYN` of no row is not checked. -/
def Obligations.DataAccessesAboveMemoryFault : Prop :=
  ∀ s : State, s.i.toNat ≤ 0xFFF →
    (∀ (x y : Reg) (n : Rows), 1 ≤ n.val → 0xFFF < s.i.toNat + n.val - 1 →
      exec (.drw x y n) s = .fault (.memoryOutOfBounds 0x1000)) ∧
    (∀ x : Reg, 0xFFF < s.i.toNat + 2 → exec (.ldB x) s = .fault (.memoryOutOfBounds 0x1000)) ∧
    (∀ x : Reg, 0xFFF < s.i.toNat + x.val → exec (.ldMemV x) s = .fault (.memoryOutOfBounds 0x1000) ∧
      exec (.ldVMem x) s = .fault (.memoryOutOfBounds 0x1000))

/-- R66, R253: a step's fetch reads what earlier instructions stored: when an `FX55` has stored the two bytes of an
instruction's word, the step at that address executes that instruction. -/
def Obligations.StoredInstructionIsFetched : Prop :=
  ∀ (x k k' : Reg) (i : Instr) (s t : State), s.Inv → exec (.ldMemV x) s = .next t →
    k'.val = k.val + 1 → k' ≤ x → encode i = s.reg k ++ s.reg k' → waits i t = false →
    ∀ u : State, exec i (t.jump (BitVec.ofNat 16 (s.i.toNat + k.val))) = .next u →
      step (t.jump (BitVec.ofNat 16 (s.i.toNat + k.val))) = .next u.tick

/-! ### Timers and keys -/

/-- R190: `FX07` reads DT as it is before the cycle's tick. -/
def Obligations.ReadDelayTimerCopiesDT : Prop :=
  ∀ (x : Reg) (s : State), encodedAs (.ldVDt x) 0xF0FF 0xF007 ∧
    ∃ t : State, exec (.ldVDt x) s = .next t ∧ t.reg x = s.dt ∧ t.pc = s.pc + 2 ∧ onlyRegs [x] s t

/-- R192: `FX15`; the tick of the same cycle leaves DT one below the value written (0 stays 0). -/
def Obligations.SetDelayTimerWritesDT : Prop :=
  ∀ (x : Reg) (s : State), encodedAs (.ldDt x) 0xF0FF 0xF015 ∧
    ∃ t : State, exec (.ldDt x) s = .next t ∧ t.dt = s.reg x ∧ t.st = s.st ∧ t.pc = s.pc + 2 ∧
      t.tick.dt.toNat = (s.reg x).toNat - 1 ∧ sameRegsBut [] s t ∧ t.i = s.i ∧ sameMemory s t ∧ sameDisplay s t ∧
      sameStack s t ∧ sameFixed s t

/-- R193: `FX18`; the tick of the same cycle leaves ST one below the value written (0 stays 0) and beeps exactly when that
value is 1, whatever ST was before. -/
def Obligations.SetSoundTimerWritesST : Prop :=
  ∀ (x : Reg) (s : State), encodedAs (.ldSt x) 0xF0FF 0xF018 ∧
    ∃ t : State, exec (.ldSt x) s = .next t ∧ t.st = s.reg x ∧ t.dt = s.dt ∧ t.pc = s.pc + 2 ∧
      t.tick.st.toNat = (s.reg x).toNat - 1 ∧ (t.beeps = true ↔ s.reg x = 1) ∧ (s.reg x = 2 → t.tick.beeps = true) ∧
      sameRegsBut [] s t ∧ t.i = s.i ∧ sameMemory s t ∧ sameDisplay s t ∧ sameStack s t ∧ sameFixed s t

/-- R191, R96 (D12, D13; the counter of draws is the model's, log 3): `FX0A` with some key pressed stores the index of a pressed key, whichever the free choice is, and
takes one draw; with one key pressed it is that key; with none the instruction changes nothing. -/
def Obligations.KeyWaitReportsAPressedKey : Prop :=
  ∀ (x : Reg) (s : State),
    ((∃ k : Fin 16, s.pressed k = true) →
      ∃ (t : State) (k : Fin 16), exec (.ldVK x) s = .next t ∧ waits (.ldVK x) s = false ∧ s.pressed k = true ∧
        (t.reg x).toNat = k.val ∧ t.draws = s.draws + 1 ∧ t.pc = s.pc + 2 ∧ onlyRegs [x] s t) ∧
    ((∀ k : Fin 16, s.pressed k = false) → exec (.ldVK x) s = .next s ∧ waits (.ldVK x) s = true)

/-! ### Whole-machine rules -/

/-- No instruction is refused, and the errors an instruction raises are these and no others (R211's list, R57, R123, R120,
R137; D11, D16). -/
def Obligations.InstructionErrorsAreTheListedOnes : Prop :=
  ∀ (i : Instr) (s : State), s.i.toNat ≤ 0xFFF →
    (∀ r : Refusal, exec i s ≠ .refused r) ∧
    ∀ e : Fault, exec i s = .fault e ↔
      (∃ nnn : Addr, i = .call nnn ∧ s.sp.val = 16 ∧ e = .stackOverflow s.pc) ∨
      (i = .ret ∧ s.sp.val = 0 ∧ e = .stackUnderflow s.pc) ∨
      (∃ x : Reg, (i = .skp x ∨ i = .sknp x) ∧ 16 ≤ (s.reg x).toNat ∧ e = .invalidKeyIndex (s.reg x)) ∨
      (∃ (x y : Reg) (n : Rows), i = .drw x y n ∧ 0x1000 < s.i.toNat + n.val ∧ e = .memoryOutOfBounds 0x1000) ∨
      (∃ x : Reg, i = .ldB x ∧ 0xFFF < s.i.toNat + 2 ∧ e = .memoryOutOfBounds 0x1000) ∨
      (∃ x : Reg, (i = .ldMemV x ∨ i = .ldVMem x) ∧ 0xFFF < s.i.toNat + x.val ∧ e = .memoryOutOfBounds 0x1000)

/-- R24: an instruction writes no general register outside its row of R24's column "writes". -/
def Obligations.RegistersOutsideTheWriteColumnStay : Prop :=
  ∀ (i : Instr) (s t : State), exec i s = .next t → sameRegsBut (writesOf i) s t

/-- R24 (a noninterference of registers): what an instruction does depends on no general register outside its row of R24's
column "reads": two states that differ in other registers only raise the same errors, and their next states differ in
registers only and agree on every register the instruction writes. The two have equal counters of draws, and that they then draw
the same byte and the same key is the model's choice (log 31); R99 makes the outcome a function of the draws. -/
def Obligations.ResultsDependOnTheReadColumnOnly : Prop :=
  ∀ (i : Instr) (s s' : State), agreeButRegs s s' → (∀ r ∈ readsOf i, s.reg r = s'.reg r) →
    (∀ e : Fault, exec i s = .fault e → exec i s' = .fault e) ∧
    (∀ t : State, exec i s = .next t →
      ∃ t' : State, exec i s' = .next t' ∧ agreeButRegs t t' ∧
        (waits i s = false → ∀ r ∈ writesOf i, t.reg r = t'.reg r))

/-- R29, R31, R34, R35, R36, R37, R51 and files 41 to 46: which instructions may change each part of the state other than the
general registers (RegistersOutsideTheWriteColumnStay says it of those) and PC; no instruction changes the key state, the
fontset or the mark of a fatal error. The counter of draws is the model's own field (logs 2 and 3), and its clause says which
instructions take a draw of R9's parameters. -/
def Obligations.EachPartOfTheStateHasItsWriters : Prop :=
  ∀ (i : Instr) (s t : State), exec i s = .next t →
    (t.fb ≠ s.fb ∨ t.draw ≠ s.draw → i = .cls ∨ ∃ (x y : Reg) (n : Rows), i = .drw x y n) ∧
    (t.mem ≠ s.mem → ∃ x : Reg, i = .ldB x ∨ i = .ldMemV x) ∧
    (t.stack ≠ s.stack ∨ t.sp ≠ s.sp → i = .ret ∨ ∃ nnn : Addr, i = .call nnn) ∧
    (t.i ≠ s.i → (∃ nnn : Addr, i = .ldI nnn) ∨ ∃ x : Reg, i = .addI x ∨ i = .ldF x) ∧
    (t.dt ≠ s.dt → ∃ x : Reg, i = .ldDt x) ∧ (t.st ≠ s.st → ∃ x : Reg, i = .ldSt x) ∧
    (t.draws ≠ s.draws → (∃ (x : Reg) (nn : Byte), i = .rnd x nn) ∨ ∃ x : Reg, i = .ldVK x) ∧
    t.key = s.key ∧ t.fontset = s.fontset ∧ t.faulted = s.faulted

/-- R36, R37, R95: over a whole step, neither the key state nor the fontset changes, and a step that leaves PC where it was is
a wait, a jump, a call, a return or an indexed jump. -/
def Obligations.StepKeepsKeysAndMovesThePc : Prop :=
  ∀ s t : State, step s = .next t →
    t.key = s.key ∧ t.fontset = s.fontset ∧
    (t.pc = s.pc → s.keyBlocked ∨
      ∃ i : Instr, decodeWord (s.wordAt s.pc.toNat) = .ok i ∧
        (i = .ret ∨ ∃ nnn : Addr, i = .jp nnn ∨ i = .call nnn ∨ i = .jpV0 nnn))

/-! ### The core interface -/

/-- R230: `set_key_state`. -/
def Obligations.SetKeyStateWritesOneKeyOrFails : Prop :=
  ∀ (index : Nat) (pressed : Bool) (s : State),
    (16 ≤ index → s.setKeyState index pressed = .error (.invalidKeyIndex index)) ∧
    (index < 16 → ∃ t : State, s.setKeyState index pressed = .ok t ∧
      (∀ k : Fin 16, (k.val = index → t.pressed k = pressed) ∧ (k.val ≠ index → t.pressed k = s.pressed k)) ∧
      { t with key := s.key } = s)

/-- R243, R244: `load_program`. -/
def Obligations.LoadProgramCopiesOrFails : Prop :=
  ∀ (bytes : List Byte) (s : State), Memory.wf s.fontset s.mem →
    (3584 < bytes.length → s.loadProgram bytes = .error (.programTooLarge bytes.length)) ∧
    (bytes.length ≤ 3584 → ∃ t : State, s.loadProgram bytes = .ok t ∧
      (∀ k : Nat, k < bytes.length → t.byteAt (0x200 + k) = bytes.getD k 0) ∧
      sameMemoryOutside 0x200 bytes.length s t ∧ { t with mem := s.mem } = s)

/-- R227, R228, R229, with R233's boot order: on a machine that has been reset, reading the framebuffer or the draw flag
answers it and changes nothing, and clearing the draw flag clears it alone. That these calls have a move on a faulted machine
too, on its free values, is the model's choice (log 28). -/
def Obligations.DisplayCallsReadAndClearTheFlag : Prop :=
  ∀ c : Session, c.phase ≠ .unreset →
    hostCall c .readFramebuffer = some (c, .framebuffer c.machine.fb) ∧
    hostCall c .drawPending = some (c, .drawFlag c.machine.draw) ∧
    ∃ c' : Session, hostCall c .clearDrawPending = some (c', .done) ∧ c'.machine.draw = false ∧ c'.phase = c.phase ∧
      { c'.machine with draw := c.machine.draw } = c.machine

/-- R233, R246, R247 (D22, D23), call by call and then over sequences of calls. Before the first `reset()` only `reset()` has a
move. A load has one exactly between a reset and the first load or `step_cycle`, and leads to phase `loaded` whether its check
fails or not (a failed call is a call, log 21); a `step_cycle` has one exactly on a machine that has been reset and is not
faulted, and leads to `running`; and no call but `reset()` leads out of those two phases. So once a load or a `step_cycle` is
made, no load has a move until the next `reset()`, whatever the calls before, between and after. -/
def Obligations.BrokenDutiesHaveNoMove : Prop :=
  ∀ c : Session,
    (c.phase = .unreset → ∀ call : HostCall, call ≠ .reset → hostCall c call = none) ∧
    (∀ bytes : List Byte, (c.phase = .ready ↔ ∃ p : Session × HostReply, hostCall c (.loadProgram bytes) = some p)) ∧
    (∀ (bytes : List Byte) (c' : Session) (r : HostReply), hostCall c (.loadProgram bytes) = some (c', r) →
      c'.phase = .loaded) ∧
    ((c.phase ≠ .unreset ∧ c.machine.faulted = false) ↔ ∃ p : Session × HostReply, hostCall c .stepCycle = some p) ∧
    (∀ (c' : Session) (r : HostReply), hostCall c .stepCycle = some (c', r) → c'.phase = .running) ∧
    (∀ (call : HostCall) (c' : Session) (r : HostReply), call ≠ .reset → hostCall c call = some (c', r) →
      c.phase = .loaded ∨ c.phase = .running → c'.phase = .loaded ∨ c'.phase = .running) ∧
    (∀ (before between : List HostCall) (call : HostCall) (bytes : List Byte),
      (call = .stepCycle ∨ ∃ image : List Byte, call = .loadProgram image) → .reset ∉ between →
      hostCalls c (before ++ call :: (between ++ [.loadProgram bytes])) = none) ∧
    (∃ c' : Session, hostCall c .reset = some (c', .done) ∧ c'.phase = .ready ∧ c'.machine.faulted = false)

/-- R245: after a reset and the load of an image that is empty or whose first word is 0x0000, the first `step_cycle` is the
unknown opcode 0x0000. -/
def Obligations.EmptyProgramIsAnUnknownOpcode : Prop :=
  ∀ (s t : State) (bytes : List Byte), s.hostReset.loadProgram bytes = .ok t →
    (bytes = [] ∨ ∃ rest : List Byte, bytes = 0x00 :: 0x00 :: rest) → step t = .fault (.unknownOpcode 0x0000)

/-- R53, R246, R90: after a reset and the load of an image that starts with an instruction's bytes, the first `step_cycle`
executes that instruction. -/
def Obligations.LoadedProgramRunsFromItsFirstInstruction : Prop :=
  ∀ (s t u : State) (i : Instr) (rest : List Byte), s.hostReset.loadProgram (encodeBytes i ++ rest) = .ok t →
    waits i t = false → exec i t = .next u → step t = .next u.tick
end

