-- ==== Sys2Proof/Laws/Decode.lean ====
section
/-! SUPPORT. The fields of a word, and the encoders, as numbers; and a masked word by its fields. With them a fact about
decoding or encoding is arithmetic. -/

namespace Sys2Proof

theorem opField_eq (w : Word) : opField w = w.toNat / 0x1000 := by
  have := w.isLt
  simp only [opField, BitVec.extractLsb'_toNat, Nat.shiftRight_eq_div_pow]
  omega

theorem xField_val (w : Word) : (xField w).val = w.toNat / 0x100 % 0x10 := by
  simp only [xField, BitVec.extractLsb'_toNat, Nat.shiftRight_eq_div_pow]

theorem yField_val (w : Word) : (yField w).val = w.toNat / 0x10 % 0x10 := by
  simp only [yField, BitVec.extractLsb'_toNat, Nat.shiftRight_eq_div_pow]

theorem nField_val (w : Word) : (nField w).val = w.toNat % 0x10 := by
  simp [nField, BitVec.extractLsb'_toNat]

theorem nnField_toNat (w : Word) : (nnField w).toNat = w.toNat % 0x100 := by
  simp [nnField, BitVec.extractLsb'_toNat]

theorem nnnField_toNat (w : Word) : (nnnField w).toNat = w.toNat % 0x1000 := by
  simp [nnnField, BitVec.extractLsb'_toNat]

theorem encodeF0_toNat {k : Nat} (h : k < 0x10000) : (encodeF0 k).toNat = k := by
  simp only [encodeF0, BitVec.toNat_ofNat]
  omega

theorem encodeFA_toNat {op : Nat} (h : op < 0x10) (nnn : Addr) :
    (encodeFA op nnn).toNat = op * 0x1000 + nnn.toNat := by
  have := nnn.isLt
  simp only [encodeFA, BitVec.toNat_ofNat]
  omega

theorem encodeFI_toNat {op low : Nat} (h : op < 0x10) (x : Reg) (hl : low < 0x100) :
    (encodeFI op x low).toNat = op * 0x1000 + x.val * 0x100 + low := by
  have := x.isLt
  simp only [encodeFI, BitVec.toNat_ofNat]
  omega

theorem encodeFR_toNat {op low : Nat} (h : op < 0x10) (x y : Reg) (hl : low < 0x10) :
    (encodeFR op x y low).toNat = op * 0x1000 + x.val * 0x100 + y.val * 0x10 + low := by
  have := x.isLt
  have := y.isLt
  simp only [encodeFR, BitVec.toNat_ofNat]
  omega

/-- A word, its low byte and its low 12 bits, from its four nibbles. -/
theorem word_nibbles (w : Word) :
    w.toNat = opField w * 0x1000 + (xField w).val * 0x100 + (yField w).val * 0x10 + (nField w).val ∧
      (nnField w).toNat = (yField w).val * 0x10 + (nField w).val ∧
      (nnnField w).toNat = (xField w).val * 0x100 + (yField w).val * 0x10 + (nField w).val ∧ opField w < 16 := by
  have := w.isLt
  rw [opField_eq, xField_val, yField_val, nField_val, nnField_toNat, nnnField_toNat]
  omega

/-- The fields of a word of format `FA`. -/
theorem fields_encodeFA {op : Nat} (h : op < 0x10) (nnn : Addr) :
    opField (encodeFA op nnn) = op ∧ nnnField (encodeFA op nnn) = nnn := by
  have := nnn.isLt
  constructor
  · rw [opField_eq, encodeFA_toNat h]
    omega
  · apply BitVec.eq_of_toNat_eq
    rw [nnnField_toNat, encodeFA_toNat h]
    omega

/-- The fields of a word of format `FI`, whose low byte is an operand. -/
theorem fields_encodeFI {op : Nat} (h : op < 0x10) (x : Reg) (nn : Byte) :
    opField (encodeFI op x nn.toNat) = op ∧ xField (encodeFI op x nn.toNat) = x ∧
      nnField (encodeFI op x nn.toNat) = nn := by
  have := nn.isLt
  have := x.isLt
  refine ⟨?_, ?_, ?_⟩
  · rw [opField_eq, encodeFI_toNat h x nn.isLt]
    omega
  · apply Fin.ext
    rw [xField_val, encodeFI_toNat h x nn.isLt]
    omega
  · apply BitVec.eq_of_toNat_eq
    rw [nnField_toNat, encodeFI_toNat h x nn.isLt]
    omega

/-- The fields of a word of format `FX`, whose low byte selects the instruction. -/
theorem fields_encodeFX {op low : Nat} (h : op < 0x10) (x : Reg) (hl : low < 0x100) :
    opField (encodeFI op x low) = op ∧ xField (encodeFI op x low) = x ∧ (nnField (encodeFI op x low)).toNat = low := by
  have := x.isLt
  refine ⟨?_, ?_, ?_⟩
  · rw [opField_eq, encodeFI_toNat h x hl]
    omega
  · apply Fin.ext
    rw [xField_val, encodeFI_toNat h x hl]
    omega
  · rw [nnField_toNat, encodeFI_toNat h x hl]
    omega

/-- The fields of a word of format `FR` or `FD`. -/
theorem fields_encodeFR {op low : Nat} (h : op < 0x10) (x y : Reg) (hl : low < 0x10) :
    opField (encodeFR op x y low) = op ∧ xField (encodeFR op x y low) = x ∧ yField (encodeFR op x y low) = y ∧
      (nField (encodeFR op x y low)).val = low := by
  have := x.isLt
  have := y.isLt
  refine ⟨?_, ?_, ?_, ?_⟩
  · rw [opField_eq, encodeFR_toNat h x y hl]
    omega
  · apply Fin.ext
    rw [xField_val, encodeFR_toNat h x y hl]
    omega
  · apply Fin.ext
    rw [yField_val, encodeFR_toNat h x y hl]
    omega
  · rw [nField_val, encodeFR_toNat h x y hl]
    omega

/-- The two bytes of a word, joined again big-endian. -/
theorem wordBytes_join (w : Word) : w.extractLsb' 8 8 ++ w.extractLsb' 0 8 = w := by
  apply BitVec.eq_of_toNat_eq
  have := w.isLt
  simp only [BitVec.toNat_append, BitVec.extractLsb'_toNat, Nat.shiftRight_eq_div_pow]
  rw [← Nat.shiftLeft_add_eq_or_of_lt (by omega), Nat.shiftLeft_eq]
  omega

theorem and_mask_op (w : Word) : (w &&& 0xF000#16).toNat = opField w * 0x1000 := by
  have h : w &&& 0xF000#16 = w.extractLsb' 12 4 ++ 0#12 := by
    apply BitVec.eq_of_getLsbD_eq
    intro i hi
    simp only [BitVec.getLsbD_and, BitVec.getLsbD_append, BitVec.getLsbD_extractLsb']
    interval_cases i <;> simp
  rw [h, BitVec.toNat_append, opField]
  rw [← Nat.shiftLeft_add_eq_or_of_lt (by simp), Nat.shiftLeft_eq]
  simp

theorem and_mask_op_n (w : Word) : (w &&& 0xF00F#16).toNat = opField w * 0x1000 + (nField w).val := by
  have h : w &&& 0xF00F#16 = w.extractLsb' 12 4 ++ (0#8 ++ w.extractLsb' 0 4) := by
    apply BitVec.eq_of_getLsbD_eq
    intro i hi
    simp only [BitVec.getLsbD_and, BitVec.getLsbD_append, BitVec.getLsbD_extractLsb']
    interval_cases i <;> simp
  have hn := (w.extractLsb' 0 4).isLt
  rw [h, BitVec.toNat_append, BitVec.toNat_append, opField, nField]
  rw [← Nat.shiftLeft_add_eq_or_of_lt (i := 12) (by simp; omega), Nat.shiftLeft_eq]
  simp

theorem and_mask_op_nn (w : Word) : (w &&& 0xF0FF#16).toNat = opField w * 0x1000 + (nnField w).toNat := by
  have h : w &&& 0xF0FF#16 = w.extractLsb' 12 4 ++ (0#4 ++ w.extractLsb' 0 8) := by
    apply BitVec.eq_of_getLsbD_eq
    intro i hi
    simp only [BitVec.getLsbD_and, BitVec.getLsbD_append, BitVec.getLsbD_extractLsb']
    interval_cases i <;> simp
  have hn := (w.extractLsb' 0 8).isLt
  rw [h, BitVec.toNat_append, BitVec.toNat_append, opField, nnField]
  rw [← Nat.shiftLeft_add_eq_or_of_lt (i := 12) (by simp; omega), Nat.shiftLeft_eq]
  simp

/-- Decoding the bytes of a word is decoding the word. -/
theorem decode_wordBytes (w : Word) (rest : List Byte) :
    decode (wordBytes w ++ rest) = (decodeWord w).map (fun i => (i, rest)) := by
  simp only [wordBytes, List.cons_append, List.nil_append, decode, wordBytes_join]
  cases decodeWord w <;> rfl

end Sys2Proof
end

