-- ==== Sys2Proof/Laws/State.lean ====
section
/-! SUPPORT. One lemma per field per update of State, and the values the updates write, so that no later proof unfolds a
record update. -/

namespace Sys2Proof.Machine

variable (s : State)

/-! ### `setReg` -/

@[simp] theorem State.setReg_mem (x : Reg) (w : Byte) : (s.setReg x w).mem = s.mem := rfl
@[simp] theorem State.setReg_i (x : Reg) (w : Byte) : (s.setReg x w).i = s.i := rfl
@[simp] theorem State.setReg_pc (x : Reg) (w : Byte) : (s.setReg x w).pc = s.pc := rfl
@[simp] theorem State.setReg_stack (x : Reg) (w : Byte) : (s.setReg x w).stack = s.stack := rfl
@[simp] theorem State.setReg_sp (x : Reg) (w : Byte) : (s.setReg x w).sp = s.sp := rfl
@[simp] theorem State.setReg_fb (x : Reg) (w : Byte) : (s.setReg x w).fb = s.fb := rfl
@[simp] theorem State.setReg_draw (x : Reg) (w : Byte) : (s.setReg x w).draw = s.draw := rfl
@[simp] theorem State.setReg_dt (x : Reg) (w : Byte) : (s.setReg x w).dt = s.dt := rfl
@[simp] theorem State.setReg_st (x : Reg) (w : Byte) : (s.setReg x w).st = s.st := rfl
@[simp] theorem State.setReg_key (x : Reg) (w : Byte) : (s.setReg x w).key = s.key := rfl
@[simp] theorem State.setReg_faulted (x : Reg) (w : Byte) : (s.setReg x w).faulted = s.faulted := rfl
@[simp] theorem State.setReg_fontset (x : Reg) (w : Byte) : (s.setReg x w).fontset = s.fontset := rfl
@[simp] theorem State.setReg_draws (x : Reg) (w : Byte) : (s.setReg x w).draws = s.draws := rfl

/-! ### `setFlag` -/

@[simp] theorem State.setFlag_mem (f : Bool) : (s.setFlag f).mem = s.mem := rfl
@[simp] theorem State.setFlag_i (f : Bool) : (s.setFlag f).i = s.i := rfl
@[simp] theorem State.setFlag_pc (f : Bool) : (s.setFlag f).pc = s.pc := rfl
@[simp] theorem State.setFlag_stack (f : Bool) : (s.setFlag f).stack = s.stack := rfl
@[simp] theorem State.setFlag_sp (f : Bool) : (s.setFlag f).sp = s.sp := rfl
@[simp] theorem State.setFlag_fb (f : Bool) : (s.setFlag f).fb = s.fb := rfl
@[simp] theorem State.setFlag_draw (f : Bool) : (s.setFlag f).draw = s.draw := rfl
@[simp] theorem State.setFlag_dt (f : Bool) : (s.setFlag f).dt = s.dt := rfl
@[simp] theorem State.setFlag_st (f : Bool) : (s.setFlag f).st = s.st := rfl
@[simp] theorem State.setFlag_key (f : Bool) : (s.setFlag f).key = s.key := rfl
@[simp] theorem State.setFlag_faulted (f : Bool) : (s.setFlag f).faulted = s.faulted := rfl
@[simp] theorem State.setFlag_fontset (f : Bool) : (s.setFlag f).fontset = s.fontset := rfl
@[simp] theorem State.setFlag_draws (f : Bool) : (s.setFlag f).draws = s.draws := rfl

/-! ### `jump` -/

@[simp] theorem State.jump_mem (target : Word) : (s.jump target).mem = s.mem := rfl
@[simp] theorem State.jump_v (target : Word) : (s.jump target).v = s.v := rfl
@[simp] theorem State.jump_i (target : Word) : (s.jump target).i = s.i := rfl
@[simp] theorem State.jump_stack (target : Word) : (s.jump target).stack = s.stack := rfl
@[simp] theorem State.jump_sp (target : Word) : (s.jump target).sp = s.sp := rfl
@[simp] theorem State.jump_fb (target : Word) : (s.jump target).fb = s.fb := rfl
@[simp] theorem State.jump_draw (target : Word) : (s.jump target).draw = s.draw := rfl
@[simp] theorem State.jump_dt (target : Word) : (s.jump target).dt = s.dt := rfl
@[simp] theorem State.jump_st (target : Word) : (s.jump target).st = s.st := rfl
@[simp] theorem State.jump_key (target : Word) : (s.jump target).key = s.key := rfl
@[simp] theorem State.jump_faulted (target : Word) : (s.jump target).faulted = s.faulted := rfl
@[simp] theorem State.jump_fontset (target : Word) : (s.jump target).fontset = s.fontset := rfl
@[simp] theorem State.jump_draws (target : Word) : (s.jump target).draws = s.draws := rfl

/-! ### `advance` -/

@[simp] theorem State.advance_mem : (s.advance).mem = s.mem := rfl
@[simp] theorem State.advance_v : (s.advance).v = s.v := rfl
@[simp] theorem State.advance_i : (s.advance).i = s.i := rfl
@[simp] theorem State.advance_stack : (s.advance).stack = s.stack := rfl
@[simp] theorem State.advance_sp : (s.advance).sp = s.sp := rfl
@[simp] theorem State.advance_fb : (s.advance).fb = s.fb := rfl
@[simp] theorem State.advance_draw : (s.advance).draw = s.draw := rfl
@[simp] theorem State.advance_dt : (s.advance).dt = s.dt := rfl
@[simp] theorem State.advance_st : (s.advance).st = s.st := rfl
@[simp] theorem State.advance_key : (s.advance).key = s.key := rfl
@[simp] theorem State.advance_faulted : (s.advance).faulted = s.faulted := rfl
@[simp] theorem State.advance_fontset : (s.advance).fontset = s.fontset := rfl
@[simp] theorem State.advance_draws : (s.advance).draws = s.draws := rfl

/-! ### `skipIf` -/

@[simp] theorem State.skipIf_mem (c : Bool) : (s.skipIf c).mem = s.mem := by cases c <;> rfl
@[simp] theorem State.skipIf_v (c : Bool) : (s.skipIf c).v = s.v := by cases c <;> rfl
@[simp] theorem State.skipIf_i (c : Bool) : (s.skipIf c).i = s.i := by cases c <;> rfl
@[simp] theorem State.skipIf_stack (c : Bool) : (s.skipIf c).stack = s.stack := by cases c <;> rfl
@[simp] theorem State.skipIf_sp (c : Bool) : (s.skipIf c).sp = s.sp := by cases c <;> rfl
@[simp] theorem State.skipIf_fb (c : Bool) : (s.skipIf c).fb = s.fb := by cases c <;> rfl
@[simp] theorem State.skipIf_draw (c : Bool) : (s.skipIf c).draw = s.draw := by cases c <;> rfl
@[simp] theorem State.skipIf_dt (c : Bool) : (s.skipIf c).dt = s.dt := by cases c <;> rfl
@[simp] theorem State.skipIf_st (c : Bool) : (s.skipIf c).st = s.st := by cases c <;> rfl
@[simp] theorem State.skipIf_key (c : Bool) : (s.skipIf c).key = s.key := by cases c <;> rfl
@[simp] theorem State.skipIf_faulted (c : Bool) : (s.skipIf c).faulted = s.faulted := by cases c <;> rfl
@[simp] theorem State.skipIf_fontset (c : Bool) : (s.skipIf c).fontset = s.fontset := by cases c <;> rfl
@[simp] theorem State.skipIf_draws (c : Bool) : (s.skipIf c).draws = s.draws := by cases c <;> rfl

/-! ### `setByte` -/

@[simp] theorem State.setByte_v (a : Nat) (w : Byte) : (s.setByte a w).v = s.v := rfl
@[simp] theorem State.setByte_i (a : Nat) (w : Byte) : (s.setByte a w).i = s.i := rfl
@[simp] theorem State.setByte_pc (a : Nat) (w : Byte) : (s.setByte a w).pc = s.pc := rfl
@[simp] theorem State.setByte_stack (a : Nat) (w : Byte) : (s.setByte a w).stack = s.stack := rfl
@[simp] theorem State.setByte_sp (a : Nat) (w : Byte) : (s.setByte a w).sp = s.sp := rfl
@[simp] theorem State.setByte_fb (a : Nat) (w : Byte) : (s.setByte a w).fb = s.fb := rfl
@[simp] theorem State.setByte_draw (a : Nat) (w : Byte) : (s.setByte a w).draw = s.draw := rfl
@[simp] theorem State.setByte_dt (a : Nat) (w : Byte) : (s.setByte a w).dt = s.dt := rfl
@[simp] theorem State.setByte_st (a : Nat) (w : Byte) : (s.setByte a w).st = s.st := rfl
@[simp] theorem State.setByte_key (a : Nat) (w : Byte) : (s.setByte a w).key = s.key := rfl
@[simp] theorem State.setByte_faulted (a : Nat) (w : Byte) : (s.setByte a w).faulted = s.faulted := rfl
@[simp] theorem State.setByte_fontset (a : Nat) (w : Byte) : (s.setByte a w).fontset = s.fontset := rfl
@[simp] theorem State.setByte_draws (a : Nat) (w : Byte) : (s.setByte a w).draws = s.draws := rfl

/-! ### `storeBytes` -/

@[simp] theorem State.storeBytes_v (base : Nat) (ws : List Byte) (s : State) : (s.storeBytes base ws).v = s.v := by
  induction ws generalizing base s with
  | nil => rfl
  | cons w ws ih => exact ih _ _
@[simp] theorem State.storeBytes_i (base : Nat) (ws : List Byte) (s : State) : (s.storeBytes base ws).i = s.i := by
  induction ws generalizing base s with
  | nil => rfl
  | cons w ws ih => exact ih _ _
@[simp] theorem State.storeBytes_pc (base : Nat) (ws : List Byte) (s : State) : (s.storeBytes base ws).pc = s.pc := by
  induction ws generalizing base s with
  | nil => rfl
  | cons w ws ih => exact ih _ _
@[simp] theorem State.storeBytes_stack (base : Nat) (ws : List Byte) (s : State) : (s.storeBytes base ws).stack = s.stack := by
  induction ws generalizing base s with
  | nil => rfl
  | cons w ws ih => exact ih _ _
@[simp] theorem State.storeBytes_sp (base : Nat) (ws : List Byte) (s : State) : (s.storeBytes base ws).sp = s.sp := by
  induction ws generalizing base s with
  | nil => rfl
  | cons w ws ih => exact ih _ _
@[simp] theorem State.storeBytes_fb (base : Nat) (ws : List Byte) (s : State) : (s.storeBytes base ws).fb = s.fb := by
  induction ws generalizing base s with
  | nil => rfl
  | cons w ws ih => exact ih _ _
@[simp] theorem State.storeBytes_draw (base : Nat) (ws : List Byte) (s : State) : (s.storeBytes base ws).draw = s.draw := by
  induction ws generalizing base s with
  | nil => rfl
  | cons w ws ih => exact ih _ _
@[simp] theorem State.storeBytes_dt (base : Nat) (ws : List Byte) (s : State) : (s.storeBytes base ws).dt = s.dt := by
  induction ws generalizing base s with
  | nil => rfl
  | cons w ws ih => exact ih _ _
@[simp] theorem State.storeBytes_st (base : Nat) (ws : List Byte) (s : State) : (s.storeBytes base ws).st = s.st := by
  induction ws generalizing base s with
  | nil => rfl
  | cons w ws ih => exact ih _ _
@[simp] theorem State.storeBytes_key (base : Nat) (ws : List Byte) (s : State) : (s.storeBytes base ws).key = s.key := by
  induction ws generalizing base s with
  | nil => rfl
  | cons w ws ih => exact ih _ _
@[simp] theorem State.storeBytes_faulted (base : Nat) (ws : List Byte) (s : State) : (s.storeBytes base ws).faulted = s.faulted := by
  induction ws generalizing base s with
  | nil => rfl
  | cons w ws ih => exact ih _ _
@[simp] theorem State.storeBytes_fontset (base : Nat) (ws : List Byte) (s : State) : (s.storeBytes base ws).fontset = s.fontset := by
  induction ws generalizing base s with
  | nil => rfl
  | cons w ws ih => exact ih _ _
@[simp] theorem State.storeBytes_draws (base : Nat) (ws : List Byte) (s : State) : (s.storeBytes base ws).draws = s.draws := by
  induction ws generalizing base s with
  | nil => rfl
  | cons w ws ih => exact ih _ _

/-! ### `setResult` -/

@[simp] theorem State.setResult_mem (x : Reg) (w : Byte) : (s.setResult x w).mem = s.mem := rfl
@[simp] theorem State.setResult_i (x : Reg) (w : Byte) : (s.setResult x w).i = s.i := rfl
@[simp] theorem State.setResult_stack (x : Reg) (w : Byte) : (s.setResult x w).stack = s.stack := rfl
@[simp] theorem State.setResult_sp (x : Reg) (w : Byte) : (s.setResult x w).sp = s.sp := rfl
@[simp] theorem State.setResult_fb (x : Reg) (w : Byte) : (s.setResult x w).fb = s.fb := rfl
@[simp] theorem State.setResult_draw (x : Reg) (w : Byte) : (s.setResult x w).draw = s.draw := rfl
@[simp] theorem State.setResult_dt (x : Reg) (w : Byte) : (s.setResult x w).dt = s.dt := rfl
@[simp] theorem State.setResult_st (x : Reg) (w : Byte) : (s.setResult x w).st = s.st := rfl
@[simp] theorem State.setResult_key (x : Reg) (w : Byte) : (s.setResult x w).key = s.key := rfl
@[simp] theorem State.setResult_faulted (x : Reg) (w : Byte) : (s.setResult x w).faulted = s.faulted := rfl
@[simp] theorem State.setResult_fontset (x : Reg) (w : Byte) : (s.setResult x w).fontset = s.fontset := rfl
@[simp] theorem State.setResult_draws (x : Reg) (w : Byte) : (s.setResult x w).draws = s.draws := rfl

/-! ### `setResultFlag` -/

@[simp] theorem State.setResultFlag_mem (x : Reg) (w : Byte) (f : Bool) : (s.setResultFlag x w f).mem = s.mem := rfl
@[simp] theorem State.setResultFlag_i (x : Reg) (w : Byte) (f : Bool) : (s.setResultFlag x w f).i = s.i := rfl
@[simp] theorem State.setResultFlag_stack (x : Reg) (w : Byte) (f : Bool) : (s.setResultFlag x w f).stack = s.stack := rfl
@[simp] theorem State.setResultFlag_sp (x : Reg) (w : Byte) (f : Bool) : (s.setResultFlag x w f).sp = s.sp := rfl
@[simp] theorem State.setResultFlag_fb (x : Reg) (w : Byte) (f : Bool) : (s.setResultFlag x w f).fb = s.fb := rfl
@[simp] theorem State.setResultFlag_draw (x : Reg) (w : Byte) (f : Bool) : (s.setResultFlag x w f).draw = s.draw := rfl
@[simp] theorem State.setResultFlag_dt (x : Reg) (w : Byte) (f : Bool) : (s.setResultFlag x w f).dt = s.dt := rfl
@[simp] theorem State.setResultFlag_st (x : Reg) (w : Byte) (f : Bool) : (s.setResultFlag x w f).st = s.st := rfl
@[simp] theorem State.setResultFlag_key (x : Reg) (w : Byte) (f : Bool) : (s.setResultFlag x w f).key = s.key := rfl
@[simp] theorem State.setResultFlag_faulted (x : Reg) (w : Byte) (f : Bool) : (s.setResultFlag x w f).faulted = s.faulted := rfl
@[simp] theorem State.setResultFlag_fontset (x : Reg) (w : Byte) (f : Bool) : (s.setResultFlag x w f).fontset = s.fontset := rfl
@[simp] theorem State.setResultFlag_draws (x : Reg) (w : Byte) (f : Bool) : (s.setResultFlag x w f).draws = s.draws := rfl

/-! ### `loadRegs` -/

@[simp] theorem State.loadRegs_mem (base : Nat) (x : Reg) : (s.loadRegs base x).mem = s.mem := rfl
@[simp] theorem State.loadRegs_i (base : Nat) (x : Reg) : (s.loadRegs base x).i = s.i := rfl
@[simp] theorem State.loadRegs_pc (base : Nat) (x : Reg) : (s.loadRegs base x).pc = s.pc := rfl
@[simp] theorem State.loadRegs_stack (base : Nat) (x : Reg) : (s.loadRegs base x).stack = s.stack := rfl
@[simp] theorem State.loadRegs_sp (base : Nat) (x : Reg) : (s.loadRegs base x).sp = s.sp := rfl
@[simp] theorem State.loadRegs_fb (base : Nat) (x : Reg) : (s.loadRegs base x).fb = s.fb := rfl
@[simp] theorem State.loadRegs_draw (base : Nat) (x : Reg) : (s.loadRegs base x).draw = s.draw := rfl
@[simp] theorem State.loadRegs_dt (base : Nat) (x : Reg) : (s.loadRegs base x).dt = s.dt := rfl
@[simp] theorem State.loadRegs_st (base : Nat) (x : Reg) : (s.loadRegs base x).st = s.st := rfl
@[simp] theorem State.loadRegs_key (base : Nat) (x : Reg) : (s.loadRegs base x).key = s.key := rfl
@[simp] theorem State.loadRegs_faulted (base : Nat) (x : Reg) : (s.loadRegs base x).faulted = s.faulted := rfl
@[simp] theorem State.loadRegs_fontset (base : Nat) (x : Reg) : (s.loadRegs base x).fontset = s.fontset := rfl
@[simp] theorem State.loadRegs_draws (base : Nat) (x : Reg) : (s.loadRegs base x).draws = s.draws := rfl

/-! ### `tick` -/

@[simp] theorem State.tick_mem : (s.tick).mem = s.mem := rfl
@[simp] theorem State.tick_v : (s.tick).v = s.v := rfl
@[simp] theorem State.tick_i : (s.tick).i = s.i := rfl
@[simp] theorem State.tick_pc : (s.tick).pc = s.pc := rfl
@[simp] theorem State.tick_stack : (s.tick).stack = s.stack := rfl
@[simp] theorem State.tick_sp : (s.tick).sp = s.sp := rfl
@[simp] theorem State.tick_fb : (s.tick).fb = s.fb := rfl
@[simp] theorem State.tick_draw : (s.tick).draw = s.draw := rfl
@[simp] theorem State.tick_key : (s.tick).key = s.key := rfl
@[simp] theorem State.tick_faulted : (s.tick).faulted = s.faulted := rfl
@[simp] theorem State.tick_fontset : (s.tick).fontset = s.fontset := rfl
@[simp] theorem State.tick_draws : (s.tick).draws = s.draws := rfl

/-! ### `clearDrawPending` -/

@[simp] theorem State.clearDrawPending_mem : (s.clearDrawPending).mem = s.mem := rfl
@[simp] theorem State.clearDrawPending_v : (s.clearDrawPending).v = s.v := rfl
@[simp] theorem State.clearDrawPending_i : (s.clearDrawPending).i = s.i := rfl
@[simp] theorem State.clearDrawPending_pc : (s.clearDrawPending).pc = s.pc := rfl
@[simp] theorem State.clearDrawPending_stack : (s.clearDrawPending).stack = s.stack := rfl
@[simp] theorem State.clearDrawPending_sp : (s.clearDrawPending).sp = s.sp := rfl
@[simp] theorem State.clearDrawPending_fb : (s.clearDrawPending).fb = s.fb := rfl
@[simp] theorem State.clearDrawPending_dt : (s.clearDrawPending).dt = s.dt := rfl
@[simp] theorem State.clearDrawPending_st : (s.clearDrawPending).st = s.st := rfl
@[simp] theorem State.clearDrawPending_key : (s.clearDrawPending).key = s.key := rfl
@[simp] theorem State.clearDrawPending_faulted : (s.clearDrawPending).faulted = s.faulted := rfl
@[simp] theorem State.clearDrawPending_fontset : (s.clearDrawPending).fontset = s.fontset := rfl
@[simp] theorem State.clearDrawPending_draws : (s.clearDrawPending).draws = s.draws := rfl

/-! ### What the updates write -/

@[simp] theorem State.jump_pc (target : Word) : (s.jump target).pc = target := rfl
@[simp] theorem State.advance_pc : s.advance.pc = s.pc + 2 := rfl
@[simp] theorem State.setResult_pc (x : Reg) (w : Byte) : (s.setResult x w).pc = s.pc + 2 := rfl
@[simp] theorem State.setResultFlag_pc (x : Reg) (w : Byte) (f : Bool) : (s.setResultFlag x w f).pc = s.pc + 2 := rfl
@[simp] theorem State.skipIf_pc (c : Bool) : (s.skipIf c).pc = if c then s.pc + 4 else s.pc + 2 := by cases c <;> rfl
@[simp] theorem State.tick_dt : s.tick.dt = tickDown s.dt := rfl
@[simp] theorem State.tick_st : s.tick.st = tickDown s.st := rfl
@[simp] theorem State.clearDrawPending_draw : s.clearDrawPending.draw = false := rfl

/-- Writing a register and reading any register. -/
theorem State.reg_setReg (x r : Reg) (w : Byte) : (s.setReg x w).reg r = if r = x then w else s.reg r := by
  simp only [State.reg, State.setReg, Fin.getElem_fin, Vector.getElem_set, Fin.val_inj, eq_comm (a := r)]

@[simp] theorem State.reg_setReg_same (x : Reg) (w : Byte) : (s.setReg x w).reg x = w := by
  simp [State.reg_setReg]

/-- Writing VF as a flag and reading any register. -/
theorem State.reg_setFlag (f : Bool) (r : Reg) :
    (s.setFlag f).reg r = if r = regVF then flagByte f else s.reg r :=
  s.reg_setReg regVF r (flagByte f)

@[simp] theorem State.reg_advance (r : Reg) : s.advance.reg r = s.reg r := rfl
@[simp] theorem State.reg_jump (target : Word) (r : Reg) : (s.jump target).reg r = s.reg r := rfl
@[simp] theorem State.reg_skipIf (c : Bool) (r : Reg) : (s.skipIf c).reg r = s.reg r := by cases c <;> rfl
@[simp] theorem State.reg_tick (r : Reg) : s.tick.reg r = s.reg r := rfl
@[simp] theorem State.reg_setByte (a : Nat) (w : Byte) (r : Reg) : (s.setByte a w).reg r = s.reg r := rfl
@[simp] theorem State.reg_storeBytes (base : Nat) (ws : List Byte) (r : Reg) :
    (s.storeBytes base ws).reg r = s.reg r := by simp [State.reg]

/-- The result of a rule that writes VX alone. -/
theorem State.reg_setResult (x r : Reg) (w : Byte) :
    (s.setResult x w).reg r = if r = x then w else s.reg r := s.reg_setReg x r w

/-- The result of a rule that writes VX and then VF: the flag wins when X = F. -/
theorem State.reg_setResultFlag (x r : Reg) (w : Byte) (f : Bool) :
    (s.setResultFlag x w f).reg r = if r = regVF then flagByte f else if r = x then w else s.reg r := by
  rw [← s.reg_setReg x r w]
  exact (s.setReg x w).reg_setFlag f r

/-- The result of `loadRegs`. -/
theorem State.reg_loadRegs (base : Nat) (x r : Reg) :
    (s.loadRegs base x).reg r = if r ≤ x then s.byteAt (base + r.val) else s.reg r := by
  simp [State.reg, State.loadRegs]

/-! ### `byteAt` under the updates that leave memory alone -/

/-- A byte read depends on the memory and the fontset alone. -/
theorem State.byteAt_congr {s t : State} (hm : t.mem = s.mem) (hf : t.fontset = s.fontset) (a : Nat) :
    t.byteAt a = s.byteAt a := by simp [State.byteAt, hm, hf]

@[simp] theorem State.byteAt_setReg (x : Reg) (w : Byte) (a : Nat) : (s.setReg x w).byteAt a = s.byteAt a := rfl
@[simp] theorem State.byteAt_setFlag (f : Bool) (a : Nat) : (s.setFlag f).byteAt a = s.byteAt a := rfl
@[simp] theorem State.byteAt_jump (target : Word) (a : Nat) : (s.jump target).byteAt a = s.byteAt a := rfl
@[simp] theorem State.byteAt_advance (a : Nat) : s.advance.byteAt a = s.byteAt a := rfl
@[simp] theorem State.byteAt_skipIf (c : Bool) (a : Nat) : (s.skipIf c).byteAt a = s.byteAt a := by cases c <;> rfl
@[simp] theorem State.byteAt_tick (a : Nat) : s.tick.byteAt a = s.byteAt a := rfl
@[simp] theorem State.byteAt_loadRegs (base : Nat) (x : Reg) (a : Nat) :
    (s.loadRegs base x).byteAt a = s.byteAt a := rfl
@[simp] theorem State.byteAt_setResult (x : Reg) (w : Byte) (a : Nat) :
    (s.setResult x w).byteAt a = s.byteAt a := rfl
@[simp] theorem State.byteAt_setResultFlag (x : Reg) (w : Byte) (f : Bool) (a : Nat) :
    (s.setResultFlag x w f).byteAt a = s.byteAt a := rfl

/-! ### The faulted Machine: what R208 and the model's own fields define, and nothing else -/

@[simp] theorem State.enterFault_faulted (e : Fault) : (s.enterFault e).faulted = true := rfl
@[simp] theorem State.enterFault_fontset (e : Fault) : (s.enterFault e).fontset = s.fontset := rfl
@[simp] theorem State.enterFault_draws (e : Fault) : (s.enterFault e).draws = s.draws := rfl

/-! ### The host's reset -/

@[simp] theorem State.hostReset_fontset : s.hostReset.fontset = s.fontset := rfl
@[simp] theorem State.hostReset_faulted : s.hostReset.faulted = false := rfl

end Sys2Proof.Machine
end

