-- ==== Sys2Proof/Laws/Memory.lean ====
section
/-! SUPPORT. What the memory operations do: a read after a write, and that every operation keeps the canonical form. -/

namespace Sys2Proof.Machine

@[simp] theorem Memory.find_cons (k : Nat) (w : Byte) (m : Memory) (a : Nat) :
    Memory.find ((k, w) :: m) a = if k = a then some w else Memory.find m a := rfl

/-- An address that no entry has is not found. -/
theorem Memory.find_eq_none {m : Memory} {a : Nat} (h : ∀ c ∈ m, c.1 ≠ a) : Memory.find m a = none := by
  induction m with
  | nil => rfl
  | cons c m ih =>
    obtain ⟨k, w⟩ := c
    have hk : k ≠ a := h (k, w) (by simp)
    simp [hk, ih fun c hc => h c (by simp [hc])]

/-- What is found is an entry. -/
theorem Memory.mem_of_find {m : Memory} {a : Nat} {w : Byte} (h : Memory.find m a = some w) : (a, w) ∈ m := by
  induction m with
  | nil => simp [Memory.find] at h
  | cons c m ih =>
    obtain ⟨k, u⟩ := c
    by_cases hk : k = a
    · simp_all
    · simp only [Memory.find_cons, hk, if_false] at h
      exact List.mem_cons_of_mem _ (ih h)

/-- A find after a put, of any address. -/
theorem Memory.find_put (m : Memory) (a b : Nat) (w : Byte) :
    Memory.find (Memory.put a w m) b = if b = a then some w else Memory.find m b := by
  induction m with
  | nil => simp [Memory.put, Memory.find, eq_comm]
  | cons c m ih =>
    obtain ⟨k, u⟩ := c
    unfold Memory.put
    by_cases hb : b = a
    · subst hb
      rw [if_pos rfl] at ih ⊢
      split_ifs with h1 h2
      · simp
      · simp
      · have : k ≠ b := fun h => h2 h.symm
        simp [this, ih]
    · have hab : a ≠ b := fun h => hb h.symm
      rw [if_neg hb] at ih ⊢
      split_ifs with h1 h2
      · simp [hab]
      · subst h2
        simp [hab]
      · simp [ih]

/-- A find after an erase, in a list whose addresses rise. -/
theorem Memory.find_erase {m : Memory} (hm : m.Pairwise fun c d => c.1 < d.1) (a b : Nat) :
    Memory.find (Memory.erase a m) b = if b = a then none else Memory.find m b := by
  induction m with
  | nil => simp [Memory.erase, Memory.find]
  | cons c m ih =>
    obtain ⟨k, u⟩ := c
    obtain ⟨hlt, hm'⟩ := List.pairwise_cons.mp hm
    unfold Memory.erase
    by_cases hk : k = a
    · subst hk
      by_cases hb : b = k
      · subst hb
        simpa using Memory.find_eq_none fun c hc => Nat.ne_of_gt (hlt c hc)
      · have : k ≠ b := fun h => hb h.symm
        simp [hb, this]
    · by_cases hb : b = a
      · subst hb
        simp [hk, ih hm']
      · simp [hk, hb, ih hm']

/-- The entries after a put. -/
theorem Memory.mem_put {m : Memory} {a : Nat} {w : Byte} {c : Host.Cell} (h : c ∈ Memory.put a w m) :
    c = (a, w) ∨ c ∈ m := by
  induction m with
  | nil => simpa [Memory.put] using h
  | cons d m ih =>
    obtain ⟨k, u⟩ := d
    unfold Memory.put at h
    split_ifs at h with h1 h2
    · simpa using h
    · rcases List.mem_cons.mp h with h | h
      · exact Or.inl h
      · exact Or.inr (List.mem_cons_of_mem _ h)
    · rcases List.mem_cons.mp h with h | h
      · exact Or.inr (by simp [h])
      · exact (ih h).imp id (List.mem_cons_of_mem _)

/-- The entries after an erase. -/
theorem Memory.mem_erase {m : Memory} {a : Nat} {c : Host.Cell} (h : c ∈ Memory.erase a m) : c ∈ m := by
  induction m with
  | nil => simp [Memory.erase] at h
  | cons d m ih =>
    obtain ⟨k, u⟩ := d
    unfold Memory.erase at h
    split_ifs at h with h1
    · exact List.mem_cons_of_mem _ h
    · rcases List.mem_cons.mp h with h | h
      · simp [h]
      · exact List.mem_cons_of_mem _ (ih h)

/-- A put keeps the addresses rising. -/
theorem Memory.put_rising {m : Memory} (hm : m.Pairwise fun c d => c.1 < d.1) (a : Nat) (w : Byte) :
    (Memory.put a w m).Pairwise fun c d => c.1 < d.1 := by
  induction m with
  | nil => simp [Memory.put]
  | cons c m ih =>
    obtain ⟨k, u⟩ := c
    obtain ⟨hlt, hm'⟩ := List.pairwise_cons.mp hm
    unfold Memory.put
    split_ifs with h1 h2
    · refine List.pairwise_cons.mpr ⟨fun d hd => ?_, hm⟩
      rcases List.mem_cons.mp hd with rfl | hd
      · exact h1
      · exact Nat.lt_trans h1 (hlt d hd)
    · subst h2
      exact List.pairwise_cons.mpr ⟨hlt, hm'⟩
    · refine List.pairwise_cons.mpr ⟨fun d hd => ?_, ih hm'⟩
      rcases Memory.mem_put hd with rfl | hd
      · show k < a
        omega
      · exact hlt d hd

/-- An erase keeps the addresses rising. -/
theorem Memory.erase_rising {m : Memory} (hm : m.Pairwise fun c d => c.1 < d.1) (a : Nat) :
    (Memory.erase a m).Pairwise fun c d => c.1 < d.1 := by
  induction m with
  | nil => simp [Memory.erase]
  | cons c m ih =>
    obtain ⟨k, u⟩ := c
    obtain ⟨hlt, hm'⟩ := List.pairwise_cons.mp hm
    unfold Memory.erase
    split_ifs with h1
    · exact hm'
    · exact List.pairwise_cons.mpr ⟨fun d hd => hlt d (Memory.mem_erase hd), ih hm'⟩

/-- A write keeps the canonical form. -/
theorem Memory.write_wf {font : Vector Byte 80} {m : Memory} (hm : Memory.wf font m) (a : Nat) (w : Byte) :
    Memory.wf font (Memory.write font m a w) := by
  obtain ⟨hrise, hcell⟩ := hm
  unfold Memory.write
  split_ifs with h1 h2
  · exact ⟨hrise, hcell⟩
  · exact ⟨Memory.erase_rising hrise a, fun c hc => hcell c (Memory.mem_erase hc)⟩
  · refine ⟨Memory.put_rising hrise a w, fun c hc => ?_⟩
    rcases Memory.mem_put hc with rfl | hc
    · exact ⟨by omega, h2⟩
    · exact hcell c hc

/-- A read after a write of a cell that exists: the byte written there, and every other byte as before. -/
theorem Memory.read_write {font : Vector Byte 80} {m : Memory} (hm : Memory.wf font m) {a : Nat} (ha : a < 0x1000)
    (w : Byte) (b : Nat) :
    Memory.read font (Memory.write font m a w) b = if b = a then w else Memory.read font m b := by
  have ha' : ¬ Config.memSize ≤ a := by simpa using ha
  unfold Memory.write Memory.read
  rw [if_neg ha']
  by_cases hw : w = Memory.unlisted font a
  · rw [if_pos hw, Memory.find_erase hm.1]
    by_cases hb : b = a
    · simp [hb, hw]
    · simp [hb]
  · rw [if_neg hw, Memory.find_put]
    by_cases hb : b = a <;> simp [hb]

/-- Memory after reset is in canonical form. -/
theorem Memory.nil_wf (font : Vector Byte 80) : Memory.wf font [] := by simp [Memory.wf]

/-- One store keeps the canonical form. -/
theorem State.setByte_wf {s : State} (h : Memory.wf s.fontset s.mem) (a : Nat) (w : Byte) :
    Memory.wf (s.setByte a w).fontset (s.setByte a w).mem := Memory.write_wf h a w

/-- Several stores keep the canonical form. -/
theorem State.storeBytes_wf (ws : List Byte) (base : Nat) {s : State} (h : Memory.wf s.fontset s.mem) :
    Memory.wf (s.storeBytes base ws).fontset (s.storeBytes base ws).mem := by
  induction ws generalizing base s with
  | nil => exact h
  | cons w ws ih => exact ih (base + 1) (State.setByte_wf h base w)

/-- A byte read after one store. -/
theorem State.byteAt_setByte {s : State} (h : Memory.wf s.fontset s.mem) {a : Nat} (ha : a < 0x1000) (w : Byte)
    (b : Nat) : (s.setByte a w).byteAt b = if b = a then w else s.byteAt b :=
  Memory.read_write h ha w b

/-- A byte read after several stores: the byte stored there, or the byte as before outside them. -/
theorem State.byteAt_storeBytes (ws : List Byte) (base : Nat) {s : State} (h : Memory.wf s.fontset s.mem)
    (hr : base + ws.length ≤ 0x1000) (b : Nat) :
    (s.storeBytes base ws).byteAt b =
      if base ≤ b ∧ b < base + ws.length then ws.getD (b - base) 0 else s.byteAt b := by
  induction ws generalizing base s with
  | nil =>
    have : ¬ (base ≤ b ∧ b < base + ([] : List Byte).length) := by simp
    rw [if_neg this]
    rfl
  | cons w ws ih =>
    simp only [List.length_cons] at hr ⊢
    have h' := State.setByte_wf h base w
    show (State.storeBytes (base + 1) ws (s.setByte base w)).byteAt b = _
    rw [ih (base + 1) h' (by omega), State.byteAt_setByte h (by omega)]
    by_cases hb : b = base
    · subst hb
      simp
    · by_cases hin : base + 1 ≤ b ∧ b < base + 1 + ws.length
      · have h2 : base ≤ b ∧ b < base + (ws.length + 1) := by omega
        rw [if_pos hin, if_pos h2]
        obtain ⟨d, rfl⟩ : ∃ d, b = base + 1 + d := ⟨b - (base + 1), by omega⟩
        have e1 : base + 1 + d - (base + 1) = d := by omega
        have e2 : base + 1 + d - base = d + 1 := by omega
        rw [e1, e2]
        simp
      · have h2 : ¬ (base ≤ b ∧ b < base + (ws.length + 1)) := by omega
        rw [if_neg hin, if_neg h2, if_neg hb]

/-- The byte stored `k` bytes after the base. -/
theorem State.byteAt_storeBytes_inside (ws : List Byte) (base : Nat) {s : State} (h : Memory.wf s.fontset s.mem)
    (hr : base + ws.length ≤ 0x1000) {k : Nat} (hk : k < ws.length) :
    (s.storeBytes base ws).byteAt (base + k) = ws.getD k 0 := by
  rw [State.byteAt_storeBytes ws base h hr, if_pos (by omega), Nat.add_sub_cancel_left]

/-- A byte outside the stored ones. -/
theorem State.byteAt_storeBytes_outside (ws : List Byte) (base : Nat) {s : State} (h : Memory.wf s.fontset s.mem)
    (hr : base + ws.length ≤ 0x1000) {b : Nat} (hb : b < base ∨ base + ws.length ≤ b) :
    (s.storeBytes base ws).byteAt b = s.byteAt b := by
  rw [State.byteAt_storeBytes ws base h hr, if_neg (by omega)]

/-- Stores change memory alone. -/
theorem State.storeBytes_onlyMem (ws : List Byte) (base : Nat) (s : State) :
    { s.storeBytes base ws with mem := s.mem } = s := by
  induction ws generalizing base s with
  | nil => rfl
  | cons w ws ih =>
    have h := congrArg (fun t : State => { t with mem := s.mem }) (ih (base + 1) (s.setByte base w))
    exact h

end Sys2Proof.Machine
end

