-- ==== Sys2Proof/Laws/Ops.lean ====
section
/-! SUPPORT. One lemma for each shared operation and operand form that says what it can answer. -/

namespace Sys2Proof.Machine

/-- When an access raises no error: it is empty, or its last byte exists. -/
theorem accessFault_eq_none {base count : Nat} :
    accessFault base count = none ↔ count = 0 ∨ base + count ≤ 0x1000 := by
  unfold accessFault
  split_ifs with h
  · simp only [false_iff]
    omega
  · simp only [true_iff]
    omega

/-- The error of an access: only this one, with the first address above 0xFFF. -/
theorem accessFault_eq_some {base count : Nat} {e : Fault} :
    accessFault base count = some e ↔
      1 ≤ count ∧ 0x1000 < base + count ∧ e = .memoryOutOfBounds (max base 0x1000) := by
  unfold accessFault
  split_ifs with h
  · simp only [Option.some.injEq, eq_comm (a := e)]
    constructor
    · intro he
      exact ⟨h.1, by omega, he⟩
    · exact fun h => h.2.2
  · simp only [false_iff]
    omega

/-- What a push answers: the word at `stack[SP]`, SP up by one, all else the same; `none` exactly when the stack is full. -/
theorem State.push_eq_some {s t : State} {w : Word} (h : s.push w = some t) :
    ∃ hs : s.sp.val < 16, t = { s with stack := s.stack.set s.sp.val w, sp := ⟨s.sp.val + 1, by omega⟩ } := by
  unfold State.push at h
  split_ifs at h with hs
  exact ⟨hs, (Option.some.inj h).symm⟩

theorem State.push_eq_none {s : State} {w : Word} : s.push w = none ↔ s.sp.val = 16 := by
  have := s.sp.isLt
  unfold State.push
  split_ifs with hs
  · simp only [false_iff]
    omega
  · simp only [true_iff]
    omega

/-- What a pop answers: the word at the top of the stack, SP down by one, all else the same; `none` exactly when the stack
is empty. -/
theorem State.pop_eq_some {s t : State} {w : Word} (h : s.pop = some (w, t)) :
    ∃ hs : 0 < s.sp.val, w = s.stack[s.sp.val - 1] ∧ t = { s with sp := ⟨s.sp.val - 1, by omega⟩ } := by
  unfold State.pop at h
  split_ifs at h with hs
  obtain ⟨rfl, rfl⟩ := Prod.mk.inj (Option.some.inj h)
  exact ⟨by omega, rfl, rfl⟩

theorem State.pop_eq_none {s : State} : s.pop = none ↔ s.sp.val = 0 := by
  unfold State.pop
  split_ifs with hs <;> simp [hs]

/-- The key a register's value names. -/
theorem keyIndex_eq_some {a : Byte} {k : Fin 16} : keyIndex a = some k ↔ a.toNat = k.val := by
  unfold keyIndex
  split_ifs with h
  · simp [Fin.ext_iff]
  · simp only [false_iff]
    omega

theorem keyIndex_eq_none {a : Byte} : keyIndex a = none ↔ 16 ≤ a.toNat := by
  unfold keyIndex
  split_ifs with h
  · simp only [false_iff]
    omega
  · simp only [true_iff]
    omega

/-- Whatever the free value, the key chosen is one of those offered. -/
theorem chooseKey_mem {n : Nat} {ks : List (Fin 16)} {k : Fin 16} (h : chooseKey n ks = some k) : k ∈ ks := by
  unfold chooseKey at h
  split at h
  · cases h
  · simp_all
  · exact List.mem_of_getElem? h

/-- No key is chosen exactly when none is offered. -/
theorem chooseKey_eq_none {n : Nat} {ks : List (Fin 16)} : chooseKey n ks = none ↔ ks = [] := by
  unfold chooseKey
  split
  · simp
  · simp
  · next k ks _ =>
    have hlt : n % (k :: ks).length < (k :: ks).length := Nat.mod_lt _ (by simp)
    rw [List.getElem?_eq_getElem hlt]
    simp

theorem State.mem_pressedKeys {s : State} {k : Fin 16} : k ∈ s.pressedKeys ↔ s.pressed k = true := by
  simp [State.pressedKeys]

theorem State.pressedKeys_eq_nil {s : State} : s.pressedKeys = [] ↔ ∀ k, s.pressed k = false := by
  simp [State.pressedKeys, List.filter_eq_nil_iff]

@[simp] theorem State.length_bytesAt (s : State) (base count : Nat) : (s.bytesAt base count).length = count := by
  simp [State.bytesAt]

theorem State.getD_bytesAt (s : State) {base count r : Nat} (h : r < count) :
    (s.bytesAt base count).getD r 0 = s.byteAt (base + r) := by
  simp [State.bytesAt, List.getD_eq_getElem?_getD, h]

@[simp] theorem State.length_regsUpTo (s : State) (x : Reg) : (s.regsUpTo x).length = x.val + 1 := by
  have := x.isLt
  simp only [State.regsUpTo, List.length_take, Vector.length_toList]
  omega

theorem State.getD_regsUpTo (s : State) {x : Reg} {k : Nat} (h : k ≤ x.val) :
    (s.regsUpTo x).getD k 0 = s.reg ⟨k, by omega⟩ := by
  have hk : k < 16 := by omega
  have h1 : k < x.val + 1 := by omega
  simp [State.regsUpTo, State.reg, List.getD_eq_getElem?_getD, h1]

@[simp] theorem length_bcdDigits (a : Byte) : (bcdDigits a).length = 3 := rfl

/-- A timer after a tick, as a number. -/
theorem toNat_tickDown (t : Byte) : (tickDown t).toNat = t.toNat - 1 := by
  unfold tickDown
  split_ifs with h
  · simp [h]
  · have : t.toNat ≠ 0 := fun h0 => h (BitVec.eq_of_toNat_eq (by simpa using h0))
    have := t.isLt
    have h1 : (1 : Byte).toNat = 1 := rfl
    rw [BitVec.toNat_sub, h1]
    omega

/-- The next PC of an instruction fetched in range does not wrap (R28). -/
theorem toNat_pc_add {pc : Word} (h : pc.toNat + 1 < 0x1000) {k : Nat} (hk : k ≤ 4) :
    (pc + BitVec.ofNat 16 k).toNat = pc.toNat + k := by
  simp only [BitVec.toNat_add, BitVec.toNat_ofNat]
  omega

end Sys2Proof.Machine
end

