-- ==== Sys2Proof/Laws/Cycle.lean ====
section
/-! SUPPORT. The fetch, and what one cycle can do, said once; a proof about `step` cites these and does not unfold it. -/

namespace Sys2Proof.Machine

theorem State.fetch_eq_ok {s : State} {w : Word} :
    s.fetch = .ok w ↔ s.pc.toNat + 1 < 0x1000 ∧ w = s.wordAt s.pc.toNat := by
  unfold State.fetch
  split
  · next e h =>
    obtain ⟨-, h, -⟩ := accessFault_eq_some.mp h
    simp only [reduceCtorEq, false_iff]
    omega
  · next h =>
    have := accessFault_eq_none.mp h
    simp only [Except.ok.injEq, eq_comm (a := w)]
    constructor
    · exact fun hw => ⟨by omega, hw⟩
    · exact fun hw => hw.2

theorem State.fetch_eq_error {s : State} {e : Fault} :
    s.fetch = .error e ↔ 0x1000 ≤ s.pc.toNat + 1 ∧ e = .memoryOutOfBounds (max s.pc.toNat 0x1000) := by
  unfold State.fetch
  split
  · next e' h =>
    obtain ⟨-, h, rfl⟩ := accessFault_eq_some.mp h
    simp only [Except.error.injEq, eq_comm (a := e)]
    constructor
    · exact fun he => ⟨by omega, he⟩
    · exact fun he => he.2
  · next h =>
    have := accessFault_eq_none.mp h
    simp only [reduceCtorEq, false_iff]
    omega

/-- A decoded word, as the opcode decoder answers it. -/
theorem decodeWord_eq_ok {w : Word} {i : Instr} : decodeWord w = .ok i ↔ decodeOpcode w = some i := by
  unfold decodeWord
  split <;> simp_all

/-- Decoding a word can fail in one way only. -/
theorem decodeWord_eq_error {w : Word} {e : DecodeError} :
    decodeWord w = .error e ↔ decodeOpcode w = none ∧ e = .unknownOpcode w := by
  unfold decodeWord
  cases decodeOpcode w with
  | none => simp [eq_comm (a := e)]
  | some i => simp

/-- The cycle of a machine that is not faulted, where the fetch is in range and the word decodes. -/
theorem cycle_of_decoded {s : State} {i : Instr} (hf : s.faulted = false) (hp : s.pc.toNat + 1 < 0x1000)
    (hd : decodeWord (s.wordAt s.pc.toNat) = .ok i) : cycle s = runInstr i s := by
  have hw : s.fetch = .ok (s.wordAt s.pc.toNat) := State.fetch_eq_ok.mpr ⟨hp, rfl⟩
  simp [cycle, hf, hw, hd]

/-- What waiting means: `FX0A`, with no key pressed. -/
theorem waits_eq_true {i : Instr} {s : State} :
    waits i s = true ↔ (∃ x : Reg, i = .ldVK x) ∧ ∀ k : Fin 16, s.pressed k = false := by
  cases i <;> simp [waits, State.pressedKeys_eq_nil]

/-- Running an instruction ends in exactly these ways. -/
theorem runInstr_eq {i : Instr} {s : State} {t : State} :
    outcomeOf (runInstr i s) = .next t ↔
      (waits i s = true ∧ t = s) ∨ (waits i s = false ∧ ∃ u, exec i s = .next u ∧ t = u.tick) := by
  unfold runInstr
  split
  · next h => simp [outcomeOf, h, eq_comm]
  · next h =>
    have hw : waits i s = false := by simpa using h
    cases he : exec i s <;> simp [outcomeOf, hw, eq_comm]

/-- What a step that answers a next state has done: the machine was not faulted, the fetch was in range, the word decoded,
and the instruction waited or ran and the timers ticked. -/
theorem step_eq_next {s t : State} :
    step s = .next t ↔
      s.faulted = false ∧ s.pc.toNat + 1 < 0x1000 ∧ ∃ i, decodeWord (s.wordAt s.pc.toNat) = .ok i ∧
        ((waits i s = true ∧ t = s) ∨ (waits i s = false ∧ ∃ u, exec i s = .next u ∧ t = u.tick)) := by
  unfold step cycle
  split
  · next h => simp [outcomeOf, h]
  · next h =>
    have hf : s.faulted = false := by simpa using h
    split
    · next e he =>
      obtain ⟨hpc, -⟩ := State.fetch_eq_error.mp he
      simp only [outcomeOf, reduceCtorEq, false_iff]
      omega
    · next w hw =>
      obtain ⟨hpc, rfl⟩ := State.fetch_eq_ok.mp hw
      split
      · next e he => simp [outcomeOf, he]
      · next i hi =>
        rw [runInstr_eq]
        simp [hf, hpc, hi]

/-- A run of `core` whose first step answers a next state, by the machine's own `step`. -/
theorem core_run_succ {n : Nat} {s t : State} (h : step s = .next t) :
    Host.Core.run Sys2Proof.core (n + 1) s = Host.Core.run Sys2Proof.core n t := by
  have h' : Host.Core.step Sys2Proof.core s = .next t := h
  simp only [Host.Core.run, h']

end Sys2Proof.Machine
end

