-- ==== Sys2Proof/Laws/Display.lean ====
section
/-! SUPPORT. What drawing a sprite does to each pixel, and its collision: a sprite is a list of distinct pixels to toggle. -/

namespace Sys2Proof.Machine

theorem pixelAt_togglePixel (fb : Framebuffer) (x x' : Fin 64) (y y' : Fin 32) :
    pixelAt (togglePixel fb x y) x' y' = (pixelAt fb x' y' ^^ decide (x' = x ∧ y' = y)) := by
  simp only [pixelAt, togglePixel, Fin.getElem_fin, Vector.getElem_set]
  by_cases hx : x = x'
  · subst hx
    by_cases hy : y = y'
    · subst hy
      simp
    · have : ¬ y'.val = y.val := fun h => hy (Fin.ext h.symm)
      have h2 : ¬ y.val = y'.val := fun h => hy (Fin.ext h)
      have h3 : ¬ y' = y := fun h => hy h.symm
      simp [h2, h3]
  · have h2 : ¬ x.val = x'.val := fun h => hx (Fin.ext h)
    have h3 : ¬ x' = x := fun h => hx h.symm
    simp [h2, h3]

/-- Toggle one pixel of a sprite. -/
def blitAt (b : Blit) (p : Fin 64 × Fin 32) : Blit :=
  { fb := togglePixel b.fb p.1 p.2, collision := b.collision || pixelAt b.fb p.1 p.2 }

/-- Toggling distinct pixels flips each of them once, and collides when one of them was set. -/
theorem foldl_blitAt {ps : List (Fin 64 × Fin 32)} (hd : ps.Nodup) (b : Blit) :
    (∀ x y, pixelAt (ps.foldl blitAt b).fb x y = (pixelAt b.fb x y ^^ decide ((x, y) ∈ ps))) ∧
      ((ps.foldl blitAt b).collision = true ↔ b.collision = true ∨ ∃ p ∈ ps, pixelAt b.fb p.1 p.2 = true) := by
  induction ps generalizing b with
  | nil => simp
  | cons p ps ih =>
    obtain ⟨hp, hd'⟩ := List.nodup_cons.mp hd
    obtain ⟨hpix, hcol⟩ := ih hd' (blitAt b p)
    refine ⟨fun x y => ?_, ?_⟩
    · rw [List.foldl_cons, hpix]
      simp only [blitAt, pixelAt_togglePixel, List.mem_cons, Prod.ext_iff]
      by_cases h : x = p.1 ∧ y = p.2
      · have : (x, y) ∉ ps := by
          rw [h.1, h.2]
          exact hp
        simp [h]
        simp [h.1, h.2] at this
        simp [this]
      · simp [h]
    · rw [List.foldl_cons, hcol]
      simp only [blitAt, Bool.or_eq_true, List.exists_mem_cons_iff, or_assoc]
      refine or_congr_right (or_congr_right ?_)
      refine exists_congr fun q => and_congr_right fun hq => ?_
      have : ¬ (q.1 = p.1 ∧ q.2 = p.2) := fun h => hp (Prod.ext h.1 h.2 ▸ hq)
      simp [pixelAt_togglePixel, this]

/-- The pixels of the sprite's row `r`. -/
def rowPixels (x0 y0 r : Nat) (row : Byte) : List (Fin 64 × Fin 32) :=
  ((List.range 8).filter (fun c => row.getLsbD (7 - c))).map (fun c => (wrapColumn x0 c, wrapRow y0 r))

/-- The pixels of the sprite's rows from row `r` on. -/
def spritePixels (x0 y0 : Nat) : Nat → List Byte → List (Fin 64 × Fin 32)
  | _, [] => []
  | r, row :: rows => rowPixels x0 y0 r row ++ spritePixels x0 y0 (r + 1) rows

theorem blitRow_eq_foldl (x0 y0 r : Nat) (row : Byte) (b : Blit) :
    blitRow x0 y0 r row b = (rowPixels x0 y0 r row).foldl blitAt b := by
  unfold blitRow rowPixels
  rw [List.foldl_map]
  generalize List.range 8 = cs
  induction cs generalizing b with
  | nil => rfl
  | cons c cs ih =>
    rw [List.foldl_cons, ih, List.filter_cons]
    by_cases h : row.getLsbD (7 - c) = true
    · simp [h, blitPixel, blitAt]
    · simp [h, blitPixel]

theorem blitRows_eq_foldl (x0 y0 : Nat) (rows : List Byte) (r : Nat) (b : Blit) :
    blitRows x0 y0 r rows b = (spritePixels x0 y0 r rows).foldl blitAt b := by
  induction rows generalizing r b with
  | nil => rfl
  | cons row rows ih => simp only [blitRows, spritePixels, List.foldl_append, blitRow_eq_foldl, ih]

theorem mem_rowPixels {x0 y0 r : Nat} {row : Byte} {p : Fin 64 × Fin 32} :
    p ∈ rowPixels x0 y0 r row ↔
      p.2 = wrapRow y0 r ∧ ∃ c < 8, row.getLsbD (7 - c) = true ∧ p.1 = wrapColumn x0 c := by
  simp only [rowPixels, List.mem_map, List.mem_filter, List.mem_range, Prod.ext_iff]
  constructor
  · rintro ⟨c, ⟨hc, hb⟩, h1, h2⟩
    exact ⟨h2.symm, c, hc, hb, h1.symm⟩
  · rintro ⟨h2, c, hc, hb, h1⟩
    exact ⟨c, ⟨hc, hb⟩, h1.symm, h2.symm⟩

theorem mem_spritePixels {x0 y0 : Nat} {rows : List Byte} {r : Nat} {p : Fin 64 × Fin 32} :
    p ∈ spritePixels x0 y0 r rows ↔
      ∃ j < rows.length, p.2 = wrapRow y0 (r + j) ∧
        ∃ c < 8, (rows.getD j 0).getLsbD (7 - c) = true ∧ p.1 = wrapColumn x0 c := by
  induction rows generalizing r with
  | nil => simp [spritePixels]
  | cons row rows ih =>
    simp only [spritePixels, List.mem_append, mem_rowPixels, ih, List.length_cons]
    constructor
    · rintro (h | ⟨j, hj, h⟩)
      · exact ⟨0, by omega, by simpa using h⟩
      · exact ⟨j + 1, by omega, by simpa [Nat.add_assoc, Nat.add_comm 1] using h⟩
    · rintro ⟨j, hj, h⟩
      cases j with
      | zero => exact Or.inl (by simpa using h)
      | succ j => exact Or.inr ⟨j, by omega, by simpa [Nat.add_assoc, Nat.add_comm 1] using h⟩

theorem rowPixels_nodup (x0 y0 r : Nat) (row : Byte) : (rowPixels x0 y0 r row).Nodup := by
  refine List.Nodup.map_on ?_ (List.Nodup.filter _ List.nodup_range)
  intro c hc d hd h
  have hc' := List.mem_range.mp (List.mem_of_mem_filter hc)
  have hd' := List.mem_range.mp (List.mem_of_mem_filter hd)
  have := congrArg (fun p : Fin 64 × Fin 32 => p.1.val) h
  simp only [wrapColumn] at this
  omega

theorem spritePixels_nodup (x0 y0 : Nat) (rows : List Byte) (r : Nat) (h : rows.length ≤ 32) :
    (spritePixels x0 y0 r rows).Nodup := by
  induction rows generalizing r with
  | nil => exact List.nodup_nil
  | cons row rows ih =>
    simp only [List.length_cons] at h
    refine List.Nodup.append (rowPixels_nodup x0 y0 r row) (ih (r + 1) (by omega)) ?_
    intro p hp hq
    obtain ⟨h1, -⟩ := mem_rowPixels.mp hp
    obtain ⟨j, hj, h2, -⟩ := mem_spritePixels.mp hq
    have := congrArg Fin.val (h1.symm.trans h2)
    simp only [wrapRow] at this
    omega

theorem mem_spritePixels_zero {x0 y0 : Nat} {rows : List Byte} {px : Fin 64} {py : Fin 32} :
    (px, py) ∈ spritePixels x0 y0 0 rows ↔ spriteHits x0 y0 rows px py := by
  simp only [mem_spritePixels, spriteHits, wrapColumn, wrapRow, Fin.ext_iff, Nat.zero_add]
  constructor
  · rintro ⟨r, hr, hy, c, hc, hb, hx⟩
    exact ⟨r, c, hr, hc, hb, hx, hy⟩
  · rintro ⟨r, c, hr, hc, hb, hx, hy⟩
    exact ⟨r, hr, hy, c, hc, hb, hx⟩

/-- Drawing a sprite of at most 32 rows flips exactly the pixels its set bits hit, and collides when one of them was set. -/
theorem blitSprite_spec (x0 y0 : Nat) (rows : List Byte) (fb : Framebuffer) (h : rows.length ≤ 32) :
    (∀ px py, (spriteHits x0 y0 rows px py →
        pixelAt (blitSprite x0 y0 rows fb).fb px py = !pixelAt fb px py) ∧
      (¬ spriteHits x0 y0 rows px py → pixelAt (blitSprite x0 y0 rows fb).fb px py = pixelAt fb px py)) ∧
    ((blitSprite x0 y0 rows fb).collision = true ↔
      ∃ px py, spriteHits x0 y0 rows px py ∧ pixelAt fb px py = true) := by
  obtain ⟨hpix, hcol⟩ := foldl_blitAt (spritePixels_nodup x0 y0 rows 0 h) { fb := fb, collision := false }
  rw [blitSprite, blitRows_eq_foldl]
  refine ⟨fun px py => ?_, ?_⟩
  · rw [hpix, ← mem_spritePixels_zero]
    exact ⟨fun hm => by simp [hm], fun hm => by simp [hm]⟩
  · rw [hcol]
    simp only [Bool.false_eq_true, false_or, Prod.exists]
    exact exists_congr fun px => exists_congr fun py => by rw [mem_spritePixels_zero]

end Sys2Proof.Machine
end

