-- ==== Sys2Proof/Laws/HostOps.lean ====
section
/-! SUPPORT. What each operation of the core interface can answer, said once; a proof about sessions cites these and does not
unfold the operations. -/

namespace Sys2Proof.Machine

/-- A load that succeeds: the image fits, and its bytes are stored from 0x200 on. -/
theorem State.loadProgram_eq_ok {s t : State} {bytes : List Byte} :
    s.loadProgram bytes = .ok t ↔ bytes.length ≤ 3584 ∧ t = s.storeBytes 0x200 bytes := by
  unfold State.loadProgram
  split_ifs with h
  · have h' : ¬ bytes.length ≤ 3584 := by simpa using h
    simp [h']
  · have h' : bytes.length ≤ 3584 := by simpa using h
    simp [h', eq_comm (a := t)]

/-- A load that fails: the image does not fit. -/
theorem State.loadProgram_eq_error {s : State} {bytes : List Byte} {e : HostError} :
    s.loadProgram bytes = .error e ↔ 3584 < bytes.length ∧ e = .programTooLarge bytes.length := by
  unfold State.loadProgram
  split_ifs with h
  · have h' : 3584 < bytes.length := by simpa using h
    simp [h', eq_comm (a := e)]
  · have h' : ¬ 3584 < bytes.length := by simpa using h
    simp [h']

/-- A key that is set: the index names one, and only the key state changes. -/
theorem State.setKeyState_eq_ok {s t : State} {index : Nat} {pressed : Bool} :
    s.setKeyState index pressed = .ok t ↔
      ∃ h : index < 16, t = { s with key := s.key.set index pressed } := by
  unfold State.setKeyState
  split_ifs with h <;> simp [h, eq_comm (a := t)]

/-- Every way a call of `load_program` has a move: in phase `ready` alone, to phase `loaded`, with the image stored or, where it
does not fit, with the machine as it was. -/
theorem callLoadProgram_eq_some {bytes : List Byte} {c c' : Session} {r : HostReply}
    (h : callLoadProgram bytes c = some (c', r)) :
    c.phase = .ready ∧ c'.phase = .loaded ∧
      (c'.machine = c.machine.storeBytes 0x200 bytes ∧ r = .done ∨
        c'.machine = c.machine ∧ r = .failed (.programTooLarge bytes.length)) := by
  unfold callLoadProgram at h
  split at h
  · next hph =>
    split at h
    · next t ht =>
      obtain ⟨-, rfl⟩ := State.loadProgram_eq_ok.mp ht
      obtain ⟨rfl, rfl⟩ := Prod.mk.inj (Option.some.inj h)
      exact ⟨hph, rfl, Or.inl ⟨rfl, rfl⟩⟩
    · next e he =>
      obtain ⟨-, rfl⟩ := State.loadProgram_eq_error.mp he
      obtain ⟨rfl, rfl⟩ := Prod.mk.inj (Option.some.inj h)
      exact ⟨hph, rfl, Or.inr ⟨rfl, rfl⟩⟩
  all_goals cases h

/-- Every way a call of `step_cycle` has a move: to phase `running`, with the machine of the cycle. -/
theorem callStepCycle_eq_some {s : State} {c' : Session} {r : HostReply} (h : callStepCycle s = some (c', r)) :
    c'.phase = .running ∧
      ((∃ beep, cycle s = .completed beep c'.machine ∧ r = .completed beep) ∨
        (cycle s = .waiting c'.machine ∧ r = .waiting) ∨ ∃ e, cycle s = .fault e c'.machine ∧ r = .fault e) := by
  unfold callStepCycle at h
  split at h
  · next beep t ht =>
    obtain ⟨rfl, rfl⟩ := Prod.mk.inj (Option.some.inj h)
    exact ⟨rfl, Or.inl ⟨beep, ht, rfl⟩⟩
  · next t ht =>
    obtain ⟨rfl, rfl⟩ := Prod.mk.inj (Option.some.inj h)
    exact ⟨rfl, Or.inr (Or.inl ⟨ht, rfl⟩)⟩
  · next e t ht =>
    obtain ⟨rfl, rfl⟩ := Prod.mk.inj (Option.some.inj h)
    exact ⟨rfl, Or.inr (Or.inr ⟨e, ht, rfl⟩)⟩
  all_goals cases h

/-- A sequence of calls in two parts. -/
theorem hostCalls_append (c : Session) (calls more : List HostCall) :
    hostCalls c (calls ++ more) = (hostCalls c calls).bind fun c' => hostCalls c' more := by
  induction calls generalizing c with
  | nil => rfl
  | cons call calls ih =>
    simp only [List.cons_append, hostCalls]
    split
    · exact ih _
    · rfl

end Sys2Proof.Machine
end

