-- ==== Sys2Proof/Laws/PerInstr.lean ====
section
/-! SUPPORT. Laws about every instruction, one lemma per constructor: each instruction's word matches its own row of the
opcode table (30_encoding.md R72, R77). -/

namespace Sys2Proof

theorem encodeFA_masked {op : Nat} (h : op < 0x10) (nnn : Addr) :
    encodeFA op nnn &&& 0xF000#16 = BitVec.ofNat 16 (op * 0x1000) := by
  have := nnn.isLt
  apply BitVec.eq_of_toNat_eq
  rw [and_mask_op, opField_eq, encodeFA_toNat h, BitVec.toNat_ofNat]
  omega

theorem encodeFI_masked {op low : Nat} (h : op < 0x10) (x : Reg) (hl : low < 0x100) :
    encodeFI op x low &&& 0xF000#16 = BitVec.ofNat 16 (op * 0x1000) := by
  have := x.isLt
  apply BitVec.eq_of_toNat_eq
  rw [and_mask_op, opField_eq, encodeFI_toNat h x hl, BitVec.toNat_ofNat]
  omega

theorem encodeFX_masked {op low : Nat} (h : op < 0x10) (x : Reg) (hl : low < 0x100) :
    encodeFI op x low &&& 0xF0FF#16 = BitVec.ofNat 16 (op * 0x1000 + low) := by
  have := x.isLt
  apply BitVec.eq_of_toNat_eq
  rw [and_mask_op_nn, opField_eq, nnField_toNat, encodeFI_toNat h x hl, BitVec.toNat_ofNat]
  omega

theorem encodeFR_masked {op low : Nat} (h : op < 0x10) (x y : Reg) (hl : low < 0x10) :
    encodeFR op x y low &&& 0xF00F#16 = BitVec.ofNat 16 (op * 0x1000 + low) := by
  have := x.isLt
  have := y.isLt
  apply BitVec.eq_of_toNat_eq
  rw [and_mask_op_n, opField_eq, nField_val, encodeFR_toNat h x y hl, BitVec.toNat_ofNat]
  omega

theorem encodeFD_masked {op : Nat} (h : op < 0x10) (x y : Reg) (n : Rows) :
    encodeFR op x y n.val &&& 0xF000#16 = BitVec.ofNat 16 (op * 0x1000) := by
  have := x.isLt
  have := y.isLt
  have := n.isLt
  apply BitVec.eq_of_toNat_eq
  rw [and_mask_op, opField_eq, encodeFR_toNat h x y n.isLt, BitVec.toNat_ofNat]
  omega

theorem rowMatches_of_eq {m : String} {mask pattern w : Word} (h : w &&& mask = pattern) :
    rowMatches ⟨m, mask, pattern⟩ w = true := by simp [rowMatches, h]

/-- The instruction's word matches the row of the opcode table that has its mnemonic. -/
def Laws.MatchesRow.Statement (i : Instr) : Prop :=
  ∃ r ∈ opcodeTable, r.mnemonic = mnemonicOf i ∧ rowMatches r (encode i) = true

theorem Laws.MatchesRow.cls : Laws.MatchesRow.Statement .cls :=
  ⟨⟨"CLS", 0xFFFF#16, 0x00E0#16⟩, by simp [opcodeTable], rfl, by decide⟩

theorem Laws.MatchesRow.ret : Laws.MatchesRow.Statement .ret :=
  ⟨⟨"RET", 0xFFFF#16, 0x00EE#16⟩, by simp [opcodeTable], rfl, by decide⟩

theorem Laws.MatchesRow.jp (nnn : Addr) : Laws.MatchesRow.Statement (.jp nnn) :=
  ⟨⟨"JP", 0xF000#16, 0x1000#16⟩, by simp [opcodeTable], rfl, rowMatches_of_eq (encodeFA_masked (by decide) nnn)⟩

theorem Laws.MatchesRow.call (nnn : Addr) : Laws.MatchesRow.Statement (.call nnn) :=
  ⟨⟨"CALL", 0xF000#16, 0x2000#16⟩, by simp [opcodeTable], rfl, rowMatches_of_eq (encodeFA_masked (by decide) nnn)⟩

theorem Laws.MatchesRow.seImm (x : Reg) (nn : Byte) : Laws.MatchesRow.Statement (.seImm x nn) :=
  ⟨⟨"SE_imm", 0xF000#16, 0x3000#16⟩, by simp [opcodeTable], rfl, rowMatches_of_eq (encodeFI_masked (by decide) x nn.isLt)⟩

theorem Laws.MatchesRow.sneImm (x : Reg) (nn : Byte) : Laws.MatchesRow.Statement (.sneImm x nn) :=
  ⟨⟨"SNE_imm", 0xF000#16, 0x4000#16⟩, by simp [opcodeTable], rfl, rowMatches_of_eq (encodeFI_masked (by decide) x nn.isLt)⟩

theorem Laws.MatchesRow.seReg (x y : Reg) : Laws.MatchesRow.Statement (.seReg x y) :=
  ⟨⟨"SE_reg", 0xF00F#16, 0x5000#16⟩, by simp [opcodeTable], rfl, rowMatches_of_eq (encodeFR_masked (by decide) x y (by decide))⟩

theorem Laws.MatchesRow.ldImm (x : Reg) (nn : Byte) : Laws.MatchesRow.Statement (.ldImm x nn) :=
  ⟨⟨"LD_imm", 0xF000#16, 0x6000#16⟩, by simp [opcodeTable], rfl, rowMatches_of_eq (encodeFI_masked (by decide) x nn.isLt)⟩

theorem Laws.MatchesRow.addImm (x : Reg) (nn : Byte) : Laws.MatchesRow.Statement (.addImm x nn) :=
  ⟨⟨"ADD_imm", 0xF000#16, 0x7000#16⟩, by simp [opcodeTable], rfl, rowMatches_of_eq (encodeFI_masked (by decide) x nn.isLt)⟩

theorem Laws.MatchesRow.ldReg (x y : Reg) : Laws.MatchesRow.Statement (.ldReg x y) :=
  ⟨⟨"LD_reg", 0xF00F#16, 0x8000#16⟩, by simp [opcodeTable], rfl, rowMatches_of_eq (encodeFR_masked (by decide) x y (by decide))⟩

theorem Laws.MatchesRow.or (x y : Reg) : Laws.MatchesRow.Statement (.or x y) :=
  ⟨⟨"OR", 0xF00F#16, 0x8001#16⟩, by simp [opcodeTable], rfl, rowMatches_of_eq (encodeFR_masked (by decide) x y (by decide))⟩

theorem Laws.MatchesRow.and (x y : Reg) : Laws.MatchesRow.Statement (.and x y) :=
  ⟨⟨"AND", 0xF00F#16, 0x8002#16⟩, by simp [opcodeTable], rfl, rowMatches_of_eq (encodeFR_masked (by decide) x y (by decide))⟩

theorem Laws.MatchesRow.xor (x y : Reg) : Laws.MatchesRow.Statement (.xor x y) :=
  ⟨⟨"XOR", 0xF00F#16, 0x8003#16⟩, by simp [opcodeTable], rfl, rowMatches_of_eq (encodeFR_masked (by decide) x y (by decide))⟩

theorem Laws.MatchesRow.addReg (x y : Reg) : Laws.MatchesRow.Statement (.addReg x y) :=
  ⟨⟨"ADD_reg", 0xF00F#16, 0x8004#16⟩, by simp [opcodeTable], rfl, rowMatches_of_eq (encodeFR_masked (by decide) x y (by decide))⟩

theorem Laws.MatchesRow.sub (x y : Reg) : Laws.MatchesRow.Statement (.sub x y) :=
  ⟨⟨"SUB", 0xF00F#16, 0x8005#16⟩, by simp [opcodeTable], rfl, rowMatches_of_eq (encodeFR_masked (by decide) x y (by decide))⟩

theorem Laws.MatchesRow.shr (x y : Reg) : Laws.MatchesRow.Statement (.shr x y) :=
  ⟨⟨"SHR", 0xF00F#16, 0x8006#16⟩, by simp [opcodeTable], rfl, rowMatches_of_eq (encodeFR_masked (by decide) x y (by decide))⟩

theorem Laws.MatchesRow.subn (x y : Reg) : Laws.MatchesRow.Statement (.subn x y) :=
  ⟨⟨"SUBN", 0xF00F#16, 0x8007#16⟩, by simp [opcodeTable], rfl, rowMatches_of_eq (encodeFR_masked (by decide) x y (by decide))⟩

theorem Laws.MatchesRow.shl (x y : Reg) : Laws.MatchesRow.Statement (.shl x y) :=
  ⟨⟨"SHL", 0xF00F#16, 0x800E#16⟩, by simp [opcodeTable], rfl, rowMatches_of_eq (encodeFR_masked (by decide) x y (by decide))⟩

theorem Laws.MatchesRow.sneReg (x y : Reg) : Laws.MatchesRow.Statement (.sneReg x y) :=
  ⟨⟨"SNE_reg", 0xF00F#16, 0x9000#16⟩, by simp [opcodeTable], rfl, rowMatches_of_eq (encodeFR_masked (by decide) x y (by decide))⟩

theorem Laws.MatchesRow.ldI (nnn : Addr) : Laws.MatchesRow.Statement (.ldI nnn) :=
  ⟨⟨"LD_I", 0xF000#16, 0xA000#16⟩, by simp [opcodeTable], rfl, rowMatches_of_eq (encodeFA_masked (by decide) nnn)⟩

theorem Laws.MatchesRow.jpV0 (nnn : Addr) : Laws.MatchesRow.Statement (.jpV0 nnn) :=
  ⟨⟨"JP_V0", 0xF000#16, 0xB000#16⟩, by simp [opcodeTable], rfl, rowMatches_of_eq (encodeFA_masked (by decide) nnn)⟩

theorem Laws.MatchesRow.rnd (x : Reg) (nn : Byte) : Laws.MatchesRow.Statement (.rnd x nn) :=
  ⟨⟨"RND", 0xF000#16, 0xC000#16⟩, by simp [opcodeTable], rfl, rowMatches_of_eq (encodeFI_masked (by decide) x nn.isLt)⟩

theorem Laws.MatchesRow.drw (x y : Reg) (n : Rows) : Laws.MatchesRow.Statement (.drw x y n) :=
  ⟨⟨"DRW", 0xF000#16, 0xD000#16⟩, by simp [opcodeTable], rfl, rowMatches_of_eq (encodeFD_masked (by decide) x y n)⟩

theorem Laws.MatchesRow.skp (x : Reg) : Laws.MatchesRow.Statement (.skp x) :=
  ⟨⟨"SKP", 0xF0FF#16, 0xE09E#16⟩, by simp [opcodeTable], rfl, rowMatches_of_eq (encodeFX_masked (by decide) x (by decide))⟩

theorem Laws.MatchesRow.sknp (x : Reg) : Laws.MatchesRow.Statement (.sknp x) :=
  ⟨⟨"SKNP", 0xF0FF#16, 0xE0A1#16⟩, by simp [opcodeTable], rfl, rowMatches_of_eq (encodeFX_masked (by decide) x (by decide))⟩

theorem Laws.MatchesRow.ldVDt (x : Reg) : Laws.MatchesRow.Statement (.ldVDt x) :=
  ⟨⟨"LD_V_DT", 0xF0FF#16, 0xF007#16⟩, by simp [opcodeTable], rfl, rowMatches_of_eq (encodeFX_masked (by decide) x (by decide))⟩

theorem Laws.MatchesRow.ldVK (x : Reg) : Laws.MatchesRow.Statement (.ldVK x) :=
  ⟨⟨"LD_V_K", 0xF0FF#16, 0xF00A#16⟩, by simp [opcodeTable], rfl, rowMatches_of_eq (encodeFX_masked (by decide) x (by decide))⟩

theorem Laws.MatchesRow.ldDt (x : Reg) : Laws.MatchesRow.Statement (.ldDt x) :=
  ⟨⟨"LD_DT", 0xF0FF#16, 0xF015#16⟩, by simp [opcodeTable], rfl, rowMatches_of_eq (encodeFX_masked (by decide) x (by decide))⟩

theorem Laws.MatchesRow.ldSt (x : Reg) : Laws.MatchesRow.Statement (.ldSt x) :=
  ⟨⟨"LD_ST", 0xF0FF#16, 0xF018#16⟩, by simp [opcodeTable], rfl, rowMatches_of_eq (encodeFX_masked (by decide) x (by decide))⟩

theorem Laws.MatchesRow.addI (x : Reg) : Laws.MatchesRow.Statement (.addI x) :=
  ⟨⟨"ADD_I", 0xF0FF#16, 0xF01E#16⟩, by simp [opcodeTable], rfl, rowMatches_of_eq (encodeFX_masked (by decide) x (by decide))⟩

theorem Laws.MatchesRow.ldF (x : Reg) : Laws.MatchesRow.Statement (.ldF x) :=
  ⟨⟨"LD_F", 0xF0FF#16, 0xF029#16⟩, by simp [opcodeTable], rfl, rowMatches_of_eq (encodeFX_masked (by decide) x (by decide))⟩

theorem Laws.MatchesRow.ldB (x : Reg) : Laws.MatchesRow.Statement (.ldB x) :=
  ⟨⟨"LD_B", 0xF0FF#16, 0xF033#16⟩, by simp [opcodeTable], rfl, rowMatches_of_eq (encodeFX_masked (by decide) x (by decide))⟩

theorem Laws.MatchesRow.ldMemV (x : Reg) : Laws.MatchesRow.Statement (.ldMemV x) :=
  ⟨⟨"LD_mem_V", 0xF0FF#16, 0xF055#16⟩, by simp [opcodeTable], rfl, rowMatches_of_eq (encodeFX_masked (by decide) x (by decide))⟩

theorem Laws.MatchesRow.ldVMem (x : Reg) : Laws.MatchesRow.Statement (.ldVMem x) :=
  ⟨⟨"LD_V_mem", 0xF0FF#16, 0xF065#16⟩, by simp [opcodeTable], rfl, rowMatches_of_eq (encodeFX_masked (by decide) x (by decide))⟩

end Sys2Proof
end

