-- ==== Sys2Proof/Tests/Slice0.lean ====
section
/-! SUPPORT. The tests: the check of well-formedness on ill-formed operands, every constructor's decoding from a word written
out from the encodings of 30_encoding.md R73 and R77, single steps with the results 95_test_vectors.md gives, and for each
statement of Obligations.lean a state and operands that meet its hypotheses. -/

namespace Sys2Proof.Tests

open Sys2Proof.Machine

/-! ### Well-formedness: one operand too wide for its field, per field and format (R71, R73) -/

theorem test_wf_address_too_wide : operandsFit .address { nnn := 0x1000 } = false := by decide
theorem test_wf_address_fits : operandsFit .address { nnn := 0xFFF } = true := by decide
theorem test_wf_immediate_register_too_wide : operandsFit .registerImmediate { x := 16 } = false := by decide
theorem test_wf_immediate_too_wide : operandsFit .registerImmediate { x := 15, nn := 0x100 } = false := by decide
theorem test_wf_register_x_too_wide : operandsFit .registerRegister { x := 16 } = false := by decide
theorem test_wf_register_y_too_wide : operandsFit .registerRegister { x := 15, y := 16 } = false := by decide
theorem test_wf_draw_x_too_wide : operandsFit .draw { x := 16 } = false := by decide
theorem test_wf_draw_y_too_wide : operandsFit .draw { x := 15, y := 16 } = false := by decide
theorem test_wf_draw_rows_too_wide : operandsFit .draw { x := 15, y := 15, n := 16 } = false := by decide
theorem test_wf_sub_register_too_wide : operandsFit .registerSub { x := 16 } = false := by decide
theorem test_wf_instruction : (Instr.drw 15 15 15).wf = true := by decide

/-! ### Decoding: nibble by nibble, `oooo xxxx yyyy nnnn` -/

theorem test_decode_cls : decodeWord 0b0000_0000_1110_0000#16 = .ok .cls := by decide
theorem test_decode_ret : decodeWord 0b0000_0000_1110_1110#16 = .ok .ret := by decide
theorem test_decode_jp : decodeWord 0b0001_1010_1011_1100#16 = .ok (.jp 0xABC) := by decide
theorem test_decode_call : decodeWord 0b0010_1010_1011_1100#16 = .ok (.call 0xABC) := by decide
theorem test_decode_seImm : decodeWord 0b0011_0101_1100_0011#16 = .ok (.seImm 5 0xC3) := by decide
theorem test_decode_sneImm : decodeWord 0b0100_0101_1100_0011#16 = .ok (.sneImm 5 0xC3) := by decide
theorem test_decode_seReg : decodeWord 0b0101_0001_0010_0000#16 = .ok (.seReg 1 2) := by decide
theorem test_decode_ldImm : decodeWord 0b0110_1010_0100_0010#16 = .ok (.ldImm 10 0x42) := by decide
theorem test_decode_addImm : decodeWord 0b0111_1010_0100_0010#16 = .ok (.addImm 10 0x42) := by decide
theorem test_decode_ldReg : decodeWord 0b1000_0001_0010_0000#16 = .ok (.ldReg 1 2) := by decide
theorem test_decode_or : decodeWord 0b1000_0001_0010_0001#16 = .ok (.or 1 2) := by decide
theorem test_decode_and : decodeWord 0b1000_0001_0010_0010#16 = .ok (.and 1 2) := by decide
theorem test_decode_xor : decodeWord 0b1000_0001_0010_0011#16 = .ok (.xor 1 2) := by decide
theorem test_decode_addReg : decodeWord 0b1000_0001_0010_0100#16 = .ok (.addReg 1 2) := by decide
theorem test_decode_sub : decodeWord 0b1000_0001_0010_0101#16 = .ok (.sub 1 2) := by decide
theorem test_decode_shr : decodeWord 0b1000_0001_0010_0110#16 = .ok (.shr 1 2) := by decide
theorem test_decode_subn : decodeWord 0b1000_0001_0010_0111#16 = .ok (.subn 1 2) := by decide
theorem test_decode_shl : decodeWord 0b1000_0001_0010_1110#16 = .ok (.shl 1 2) := by decide
theorem test_decode_sneReg : decodeWord 0b1001_1010_1011_0000#16 = .ok (.sneReg 10 11) := by decide
theorem test_decode_ldI : decodeWord 0b1010_0001_0010_0011#16 = .ok (.ldI 0x123) := by decide
theorem test_decode_jpV0 : decodeWord 0b1011_0001_1111_0000#16 = .ok (.jpV0 0x1F0) := by decide
theorem test_decode_rnd : decodeWord 0b1100_0111_0000_1111#16 = .ok (.rnd 7 0x0F) := by decide
theorem test_decode_drw : decodeWord 0b1101_0001_0010_0011#16 = .ok (.drw 1 2 3) := by decide
theorem test_decode_skp : decodeWord 0b1110_0011_1001_1110#16 = .ok (.skp 3) := by decide
theorem test_decode_sknp : decodeWord 0b1110_0011_1010_0001#16 = .ok (.sknp 3) := by decide
theorem test_decode_ldVDt : decodeWord 0b1111_0101_0000_0111#16 = .ok (.ldVDt 5) := by decide
theorem test_decode_ldVK : decodeWord 0b1111_0101_0000_1010#16 = .ok (.ldVK 5) := by decide
theorem test_decode_ldDt : decodeWord 0b1111_0101_0001_0101#16 = .ok (.ldDt 5) := by decide
theorem test_decode_ldSt : decodeWord 0b1111_0101_0001_1000#16 = .ok (.ldSt 5) := by decide
theorem test_decode_addI : decodeWord 0b1111_0101_0001_1110#16 = .ok (.addI 5) := by decide
theorem test_decode_ldF : decodeWord 0b1111_0101_0010_1001#16 = .ok (.ldF 5) := by decide
theorem test_decode_ldB : decodeWord 0b1111_0101_0011_0011#16 = .ok (.ldB 5) := by decide
theorem test_decode_ldMemV : decodeWord 0b1111_0101_0101_0101#16 = .ok (.ldMemV 5) := by decide
theorem test_decode_ldVMem : decodeWord 0b1111_0101_0110_0101#16 = .ok (.ldVMem 5) := by decide

theorem test_decode_unknown_0000 : decodeWord 0x0000#16 = .error (.unknownOpcode 0x0000#16) := by decide
theorem test_decode_unknown_0123 : decodeWord 0x0123#16 = .error (.unknownOpcode 0x0123#16) := by decide
theorem test_decode_unknown_00E1 : decodeWord 0x00E1#16 = .error (.unknownOpcode 0x00E1#16) := by decide
theorem test_decode_unknown_5121 : decodeWord 0x5121#16 = .error (.unknownOpcode 0x5121#16) := by decide
theorem test_decode_unknown_8008 : decodeWord 0x8008#16 = .error (.unknownOpcode 0x8008#16) := by decide
theorem test_decode_unknown_800F : decodeWord 0x800F#16 = .error (.unknownOpcode 0x800F#16) := by decide
theorem test_decode_unknown_9AB1 : decodeWord 0x9AB1#16 = .error (.unknownOpcode 0x9AB1#16) := by decide
theorem test_decode_unknown_E3A2 : decodeWord 0xE3A2#16 = .error (.unknownOpcode 0xE3A2#16) := by decide
theorem test_decode_unknown_F575 : decodeWord 0xF575#16 = .error (.unknownOpcode 0xF575#16) := by decide
theorem test_decode_unknown_FFFF : decodeWord 0xFFFF#16 = .error (.unknownOpcode 0xFFFF#16) := by decide

theorem test_decode_bytes_are_big_endian :
    decode [0x6A#8, 0x07#8, 0xFF#8] = .ok (.ldImm 10 0x07, [0xFF#8]) := by decide
theorem test_decode_truncated : decode [0x6A#8] = .error .truncated := by decide
theorem test_decodeTableWord : decodeTableWord 16 0x8126 = some (.shr 1 2) := by decide
theorem test_decodeTableWord_refused : decodeTableWord 16 0x8128 = none := by decide

/-- Every word of the table's rows with operand bits zero decodes to the row's own instruction. -/
theorem test_rows_decode_to_themselves :
    ∀ r ∈ opcodeTable, (decodeTableWord 16 r.pattern.toNat).map mnemonicOf = some r.mnemonic := by decide

theorem test_assembly_jp : (decodeTableWord 16 0x120C).map assemblyText = some "JP 0x20C" := by decide
theorem test_assembly_shr : (decodeTableWord 16 0x8016).map assemblyText = some "SHR V0" := by decide
theorem test_assembly_ldMemV : (decodeTableWord 16 0xF155).map assemblyText = some "LD [I], V1" := by decide

/-! ### Single steps -/

/-- The next state of an outcome. -/
def nextOf : Outcome → Option State
  | .next t => some t
  | .fault _ | .refused _ => none

/-- The fault of an outcome. -/
def faultOf : Outcome → Option Fault
  | .fault e => some e
  | .next _ | .refused _ => none

/-- The state with some registers written. -/
def withRegs (l : List (Reg × Byte)) (s : State) : State := l.foldl (fun t p => t.setReg p.1 p.2) s

/-- The state with bytes stored and I at them. -/
def withData (base : Nat) (ws : List Byte) (s : State) : State :=
  { s.storeBytes base ws with i := BitVec.ofNat 16 base }

/-- The state after reset with a key pressed. -/
def withKey (k : Fin 16) (s : State) : State := { s with key := s.key.set k true }

/-- The state after a step that runs the word. -/
def ran (w : Nat) (s : State) : Option State := nextOf (step (s.withFetchWord 16 w))

/-- The fault of a step that runs the word. -/
def erred (w : Nat) (s : State) : Option Fault := faultOf (step (s.withFetchWord 16 w))

/-- A register after a step that runs the word on a state with these registers. -/
def regAfter (w : Nat) (l : List (Reg × Byte)) (r : Reg) : Option Byte := (ran w (withRegs l .reset)).map (·.reg r)

theorem test_cls : (ran 0x00E0 { State.reset with fb := togglePixel clearFramebuffer 3 4 }).map
    (fun t => (pixelAt t.fb 3 4, t.draw, t.pc)) = some (false, true, 0x202) := by decide
theorem test_ret : (ran 0x00EE { State.reset with sp := 2, stack := (State.reset.stack.set 1 0x456).set 0 0x222 }).map
    (fun t => (t.pc, t.sp)) = some (0x456, 1) := by decide
theorem test_ret_underflow : erred 0x00EE (State.reset.jump 0x300) = some (.stackUnderflow 0x300) := by decide
theorem test_jp : (ran 0x11FF .reset).map (·.pc) = some 0x1FF := by decide
theorem test_call : (ran 0x2210 (State.reset.jump 0x204)).map (fun t => (t.pc, t.sp, t.stack[0])) =
    some (0x210, 1, 0x206) := by decide
theorem test_call_overflow : erred 0x2400 { State.reset.jump 0x300 with sp := 16 } = some (.stackOverflow 0x300) := by decide
theorem test_seImm : (ran 0x3312 (withRegs [(3, 0x12)] .reset)).map (·.pc) = some 0x204 := by decide
theorem test_seImm_not : (ran 0x3313 (withRegs [(3, 0x12)] .reset)).map (·.pc) = some 0x202 := by decide
theorem test_sneImm : (ran 0x4300 (withRegs [(3, 0x12)] .reset)).map (·.pc) = some 0x204 := by decide
theorem test_sneImm_not : (ran 0x4312 (withRegs [(3, 0x12)] .reset)).map (·.pc) = some 0x202 := by decide
theorem test_seReg : (ran 0x5120 (withRegs [(1, 7), (2, 7)] .reset)).map (·.pc) = some 0x204 := by decide
theorem test_sneReg : (ran 0x9120 (withRegs [(1, 7), (2, 8)] .reset)).map (·.pc) = some 0x204 := by decide
theorem test_sneReg_not : (ran 0x9110 (withRegs [(1, 7)] .reset)).map (·.pc) = some 0x202 := by decide
theorem test_ldImm : regAfter 0x6FAA [] 15 = some 0xAA := by decide
theorem test_addImm : regAfter 0x7301 [(3, 0xFF), (15, 0x55)] 3 = some 0 := by decide
theorem test_addImm_no_flag : regAfter 0x7301 [(3, 0xFF), (15, 0x55)] 15 = some 0x55 := by decide
theorem test_ldReg : regAfter 0x8010 [(1, 0x33)] 0 = some 0x33 := by decide
theorem test_or : regAfter 0x8011 [(0, 0x0F), (1, 0xF0)] 0 = some 0xFF := by decide
theorem test_or_no_flag : regAfter 0x8011 [(0, 0x0F), (1, 0xF0), (15, 1)] 15 = some 1 := by decide
theorem test_and : regAfter 0x8012 [(0, 0x3C), (1, 0x0F)] 0 = some 0x0C := by decide
theorem test_xor : regAfter 0x8013 [(0, 0xFF), (1, 0x0F)] 0 = some 0xF0 := by decide
theorem test_addReg_flag_last : regAfter 0x8F14 [(15, 0xFF), (1, 0x01)] 15 = some 1 := by decide
theorem test_addReg_reads_vf_first : regAfter 0x80F4 [(0, 0x10), (15, 0xF0)] 0 = some 0 := by decide
theorem test_sub : regAfter 0x8015 [(0, 0x00), (1, 0x01)] 0 = some 0xFF := by decide
theorem test_sub_equal : regAfter 0x8015 [(0, 0x05), (1, 0x05)] 15 = some 1 := by decide
theorem test_shr_ignores_y : regAfter 0x8016 [(0, 0xFE), (1, 0x99)] 0 = some 0x7F := by decide
theorem test_shr_flag_last : regAfter 0x8F06 [(15, 0x03)] 15 = some 1 := by decide
theorem test_subn : regAfter 0x8017 [(0, 0x05), (1, 0x03)] 0 = some 0xFE := by decide
theorem test_subn_flag : regAfter 0x8017 [(0, 0x03), (1, 0x05)] 15 = some 1 := by decide
theorem test_shl : regAfter 0x800E [(0, 0x7F)] 0 = some 0xFE := by decide
theorem test_shl_flag : regAfter 0x800E [(0, 0x80)] 15 = some 1 := by decide
theorem test_ldI : (ran 0xA123 .reset).map (·.i) = some 0x123 := by decide
theorem test_jpV0 : (ran 0xBFF0 (withRegs [(0, 0x20)] .reset)).map (·.pc) = some 0x1010 := by decide
theorem test_jpV0_not_vx : (ran 0xB1F0 (withRegs [(1, 5)] .reset)).map (·.pc) = some 0x1F0 := by decide

/-- Any draw, NN = 0. -/
theorem test_rnd_masked_to_zero : ∃ t, exec (.rnd 0 0x00) .reset = .next t ∧ t.reg 0 = 0 :=
  ⟨_, rfl, by simp [State.setResult]⟩

/-- A draw of 0xA7 under the mask 0x0F. -/
theorem test_rnd_masked (h : Config.rand 0 = 0xA7#8) : ∃ t, exec (.rnd 0 0x0F) .reset = .next t ∧ t.reg 0 = 0x07 :=
  ⟨_, rfl, by simp [State.setResult, State.reset, State.resetWith, h]⟩

theorem test_drw_wraps_column : (ran 0xD011 (withRegs [(0, 63)] (withData 0x300 [0xC0] .reset))).map
    (fun t => (pixelAt t.fb 63 0, pixelAt t.fb 0 0, t.reg 15, t.draw)) = some (true, true, 0, true) := by decide
theorem test_drw_collides_and_reads_vf_first :
    (ran 0xDF11 (withRegs [(15, 10)] (withData 0x300 [0x80] { State.reset with fb := togglePixel clearFramebuffer 10 0 }))).map
      (fun t => (pixelAt t.fb 10 0, t.reg 15)) = some (false, 1) := by decide
theorem test_drw_above_memory : erred 0xD013 { State.reset with i := 0xFFE } = some (.memoryOutOfBounds 0x1000) := by decide
theorem test_skp : (ran 0xE59E (withKey 10 (withRegs [(5, 0x0A)] .reset))).map (·.pc) = some 0x204 := by decide
theorem test_skp_no_such_key : erred 0xE59E (withRegs [(5, 0x10)] .reset) = some (.invalidKeyIndex 0x10) := by decide
theorem test_sknp : (ran 0xE5A1 (withRegs [(5, 0x0A)] .reset)).map (·.pc) = some 0x204 := by decide
theorem test_sknp_no_such_key : erred 0xE5A1 (withRegs [(5, 0xFF)] .reset) = some (.invalidKeyIndex 0xFF) := by decide
theorem test_ldVDt : (ran 0xF307 { State.reset with dt := 5 }).map (fun t => (t.reg 3, t.dt)) = some (5, 4) := by decide
theorem test_ldVK : (ran 0xF20A (withKey 7 { State.reset with dt := 5 })).map (fun t => (t.reg 2, t.pc, t.dt)) =
    some (7, 0x202, 4) := by decide
theorem test_ldVK_two_keys (n : Nat) : chooseKey n [3, 9] = some 3 ∨ chooseKey n [3, 9] = some 9 := by
  rcases Nat.mod_two_eq_zero_or_one n with h | h <;> simp [chooseKey, h]
theorem test_ldDt : (ran 0xF015 (withRegs [(0, 0xFF)] .reset)).map (·.dt) = some 0xFE := by decide
theorem test_ldSt : (ran 0xF018 (withRegs [(0, 2)] .reset)).map (·.st) = some 1 := by decide
theorem test_addI : (ran 0xF01E (withRegs [(0, 0xFF)] { State.reset with i := 0xFFE })).map (fun t => (t.i, t.reg 15)) =
    some (0x0FD, 1) := by decide
theorem test_addI_reads_vf_first : (ran 0xFF1E (withRegs [(15, 0x10)] { State.reset with i := 0x100 })).map
    (fun t => (t.i, t.reg 15)) = some (0x110, 0) := by decide
theorem test_ldF : (ran 0xF029 (withRegs [(0, 0xFF)] .reset)).map (·.i) = some 0x4FB := by decide
theorem test_ldB : (ran 0xF033 (withRegs [(0, 123)] { State.reset with i := 0xFFD })).map (·.bytesAt 0xFFD 3) =
    some [1, 2, 3] := by decide
theorem test_ldB_over_the_fontset : (ran 0xF033 (withRegs [(0, 0xAA)] .reset)).map (·.bytesAt 0 4) =
    some [1, 7, 0, 0x90] := by decide
theorem test_ldMemV : (ran 0xF255 (withRegs [(0, 1), (1, 2), (2, 3), (3, 4)] { State.reset with i := 0x400 })).map
    (fun t => (t.bytesAt 0x400 4, t.i)) = some ([1, 2, 3, 0], 0x400) := by decide
theorem test_ldMemV_above_memory : erred 0xFF55 { State.reset with i := 0xFF1 } = some (.memoryOutOfBounds 0x1000) := by decide
theorem test_ldVMem : (ran 0xF265 (withRegs [(3, 0x77)] (withData 0x300 [2, 5, 4, 9] .reset))).map
    (fun t => (t.reg 0, t.reg 2, t.reg 3, t.i)) = some (2, 4, 0x77, 0x300) := by decide
theorem test_ldVMem_above_memory : erred 0xF165 { State.reset with i := 0xFFF } = some (.memoryOutOfBounds 0x1000) := by decide

/-! ### The cycle -/

theorem test_fetch_last_word : (ran 0x6001 (State.reset.jump 0xFFE)).map (fun t => (t.reg 0, t.pc)) = some (1, 0x1000) := by
  decide
theorem test_fetch_odd_pc : (ran 0x6A07 (State.reset.jump 0x201)).map (fun t => (t.reg 10, t.pc)) = some (7, 0x203) := by decide
theorem test_fetch_above_memory : faultOf (step (State.reset.jump 0xFFF)) = some (.memoryOutOfBounds 0x1000) := by decide
theorem test_fetch_far_above_memory : faultOf (step (State.reset.jump 0x1010)) = some (.memoryOutOfBounds 0x1010) := by decide
theorem test_reset_runs_no_program : faultOf (step State.reset) = some (.unknownOpcode 0x0000) := by decide
theorem test_faulted_machine : faultOf (step { State.reset with faulted := true }) = some .machineFaulted := by decide

/-- The beep of a completed cycle. -/
def beepOf : CycleResult → Option Bool
  | .completed beep _ => some beep
  | .waiting _ | .fault _ _ | .stuck | .refused _ => none

theorem test_beep : beepOf (cycle ({ State.reset with st := 1 }.withFetchWord 16 0x6000)) = some true := by decide
theorem test_no_beep_at_two : beepOf (cycle ({ State.reset with st := 2 }.withFetchWord 16 0x6000)) = some false := by decide
theorem test_no_beep_when_cleared : beepOf (cycle ({ State.reset with st := 1 }.withFetchWord 16 0xF018)) = some false := by
  decide
theorem test_waiting : cycle ({ State.reset with dt := 5, st := 5 }.withFetchWord 16 0xF00A) =
    .waiting ({ State.reset with dt := 5, st := 5 }.withFetchWord 16 0xF00A) := by rfl

/-! ### The core interface -/

theorem test_key_sixteen : State.reset.setKeyState 16 true = .error (.invalidKeyIndex 16) := by rfl
theorem test_key_fifteen : (State.reset.setKeyState 15 true).toOption.map (·.pressed 15) = some true := by decide
theorem test_program_too_large : State.reset.loadProgram (List.replicate 3585 0) = .error (.programTooLarge 3585) := by
  rw [State.loadProgram, List.length_replicate, if_pos (by decide)]
theorem test_load_empty : State.reset.loadProgram [] = .ok State.reset := by rfl
theorem test_load_copies : (State.reset.loadProgram [0x12, 0x34]).toOption.map (·.bytesAt 0x1FF 4) =
    some [0, 0x12, 0x34, 0] := by decide
/-- R247: more than once after one reset, a load that fails among them. -/
theorem test_second_load_has_no_move :
    hostCalls (Session.construct State.reset) [.reset, .loadProgram [0x12], .loadProgram [0x12]] = none := by rfl
theorem test_failed_load_is_the_one_load :
    hostCall { machine := State.reset, phase := .ready } (.loadProgram (List.replicate 3585 0)) =
      some ({ machine := State.reset, phase := .loaded }, .failed (.programTooLarge 3585)) := by
  simp only [hostCall, callLoadProgram, test_program_too_large]
theorem test_first_call_is_reset : hostCall (Session.construct State.reset) .stepCycle = none := by rfl

/-! ### Hypotheses that can be met

For each statement of Obligations.lean that has hypotheses: a state and operands that meet them together, at the boundaries
its clauses name. -/

/-- A state after reset with one instruction placed at PC. -/
def placed (w : Nat) : State := State.reset.withFetchWord 16 w

theorem placed_ldImm_inv : (placed 0x6001).Inv := ⟨by decide, by decide, by decide, by decide, rfl⟩

theorem witness_ResetGivesEveryFieldItsValue :
    ∃ t : State, (placed 0x6001).hostReset.loadProgram [0x12, 0x00] = .ok t := ⟨_, rfl⟩

theorem witness_StepKeepsTheInvariant : (placed 0x6001).Inv ∧ ∃ t : State, step (placed 0x6001) = .next t :=
  ⟨placed_ldImm_inv, _, rfl⟩

theorem witness_HostCallsKeepTheInvariant :
    (placed 0x6001).Inv ∧ (∃ p, hostCall { machine := placed 0x6001, phase := .running } .stepCycle = some p) ∧
    (∃ p, hostCall { machine := placed 0x6001, phase := .ready } (.loadProgram [0x12]) = some p) ∧
    (∃ p, hostCall { machine := { placed 0x6001 with faulted := true }, phase := .running } .reset = some p) ∧
    (∃ p, hostCall (Session.construct (placed 0x6001)) .reset = some p) :=
  ⟨placed_ldImm_inv, ⟨_, rfl⟩, ⟨_, rfl⟩, ⟨_, rfl⟩, ⟨_, rfl⟩⟩

theorem witness_CanonicalMemoriesThatReadAlikeAreEqual :
    Memory.wf Config.defaultFontset [(0x000, 0x12#8), (0xFFF, 0x34#8)] := by decide

theorem witness_EncodeOfDecodeIsTheWord : decodeWord 0xDFFF#16 = .ok (.drw 15 15 15) := by decide

theorem witness_DecoderFollowsTheOpcodeTable :
    decodeWord 0x800E#16 = .ok (.shl 0 0) ∧ decodeWord 0x800F#16 = .error (.unknownOpcode 0x800F#16) := by decide

theorem witness_FetchAndDecodeErrorsStopTheStep :
    0x1000 ≤ (State.reset.jump 0xFFF).pc.toNat + 1 ∧ (State.reset.jump 0xFFE).pc.toNat + 1 < 0x1000 ∧
    ∀ i : Instr, decodeWord 0x0000#16 ≠ .ok i := by
  refine ⟨by decide, by decide, fun i h => ?_⟩
  rw [test_decode_unknown_0000] at h
  cases h

theorem witness_StepRunsTheDecodedInstruction :
    (waits (.ldVK 0) (placed 0xF00A) = true ∧ decodeWord ((placed 0xF00A).wordAt 0x200) = .ok (.ldVK 0)) ∧
    (waits (.ldImm 0 1) (placed 0x6001) = false ∧ decodeWord ((placed 0x6001).wordAt 0x200) = .ok (.ldImm 0 1) ∧
      ∃ t : State, exec (.ldImm 0 1) (placed 0x6001) = .next t) ∧
    (decodeWord ((placed 0x00EE).wordAt 0x200) = .ok .ret ∧ faultOf (exec .ret (placed 0x00EE)) =
      some (.stackUnderflow 0x200)) :=
  ⟨⟨by decide, by decide⟩, ⟨by decide, by decide, _, rfl⟩, by decide, by decide⟩

theorem witness_FatalErrorLeavesAMachineWithoutAStep :
    ∃ u : State, cycle (placed 0x00EE) = .fault (.stackUnderflow 0x200) u ∧
      ∃ p, hostCall { machine := u, phase := .running } (.setKeyState 15 true) = some p := ⟨_, rfl, _, rfl⟩

theorem witness_TickCountsDownAndBeeps :
    0 < ({ State.reset with dt := 1 } : State).dt.toNat ∧ State.reset.dt.toNat = 0 ∧
    ({ State.reset with st := 1 } : State).st.toNat = 1 ∧ State.reset.st.toNat = 0 ∧ State.reset.reg 0 = 0 ∧
    beepOf (cycle { placed 0x6001 with st := 1 }) = some true := by decide

theorem witness_CompletedCycleTicksOnce : ∃ u : State, cycle (placed 0x6001) = .completed false u := ⟨_, rfl⟩

theorem witness_CycleWaitsExactlyWhenKeyBlocked : (placed 0xF00A).keyBlocked :=
  ⟨rfl, by decide, ⟨0, by decide⟩, by decide⟩

theorem witness_HaltedMachineStaysAsItIs : (placed 0x1200).halted :=
  ⟨⟨rfl, by decide, 0x200, by decide, by decide⟩, rfl, rfl⟩

theorem witness_SpinningMachineHaltsWhenItsTimersRunOut : ({ placed 0x1200 with dt := 2, st := 255 } : State).spinning :=
  ⟨⟨rfl, by decide, 0x200, by decide, by decide⟩, Or.inl (by decide)⟩

theorem witness_DrwXorsTheSprite :
    ({ State.reset with i := 0xFFF } : State).i.toNat + (1 : Rows).val ≤ 0x1000 ∧
    spriteHits 63 31 [0x80] 63 31 ∧ pixelAt (togglePixel clearFramebuffer 63 31) 63 31 = true :=
  ⟨by decide, ⟨0, 0, by decide, by decide, by decide, by decide, by decide⟩, by decide⟩

theorem witness_DrawingASpriteTwiceErasesIt :
    (0 : Reg) ≠ regVF ∧ (1 : Reg) ≠ regVF ∧ ({ State.reset with i := 0xFF1 } : State).i.toNat + (15 : Rows).val ≤ 0x1000 := by
  decide

theorem witness_JpSetsThePc : (0xFFF : Addr).toNat = 0xFFF ∧ State.reset.faulted = false := by decide

theorem witness_JpV0AddsV0ToTheTarget :
    0xFFE < ((withRegs [(0, 0xFF)] State.reset).indexedTarget 0xFFF).toNat ∧ State.reset.faulted = false := by decide

theorem witness_CallPushesTheReturnAddress :
    ({ State.reset with sp := 15 } : State).sp.val < 16 ∧ ({ State.reset with sp := 16 } : State).sp.val = 16 := by decide

theorem witness_RetPopsTheReturnAddress :
    0 < ({ State.reset with sp := 1 } : State).sp.val ∧ State.reset.sp.val = 0 := by decide

theorem witness_ReturnComesBackFromACall : ({ State.reset with sp := 15 } : State).sp.val < 16 := by decide

theorem witness_CallsNestUntilTheStackIsFull :
    State.reset.sp.val + (List.replicate 16 (0x200 : Addr)).length = 16 := by decide

theorem witness_CompareSkipsMoveThePcByFourOrTwo :
    ∃ t : State, exec (.seImm 0 0) (State.reset.jump 0xFFE) = .next t ∧ 0xFFE < t.pc.toNat ∧
      (State.reset.jump 0xFFE).faulted = false := ⟨_, rfl, by decide, rfl⟩

theorem witness_KeySkipsTestTheKeyOrFault :
    ((withRegs [(5, 15)] State.reset).reg 5).toNat = (15 : Fin 16).val ∧
    16 ≤ ((withRegs [(5, 16)] State.reset).reg 5).toNat := by decide

theorem witness_AddReportsTheCarryInVF :
    (0 : Reg) ≠ regVF ∧
    255 < ((withRegs [(0, 128), (1, 128)] State.reset).reg 0).toNat + ((withRegs [(0, 128), (1, 128)] State.reset).reg 1).toNat ∧
    ((withRegs [(0, 127), (1, 128)] State.reset).reg 0).toNat + ((withRegs [(0, 127), (1, 128)] State.reset).reg 1).toNat ≤ 255 := by
  decide

theorem witness_SubtractionsReportNoBorrowInVF :
    (0 : Reg) ≠ regVF ∧
    ((withRegs [(0, 5), (1, 5)] State.reset).reg 1).toNat ≤ ((withRegs [(0, 5), (1, 5)] State.reset).reg 0).toNat ∧
    ((withRegs [(0, 4), (1, 5)] State.reset).reg 0).toNat < ((withRegs [(0, 4), (1, 5)] State.reset).reg 1).toNat := by decide

theorem witness_ShiftsPutTheBitShiftedOutInVF : (14 : Reg) ≠ regVF := by decide

theorem witness_LogicInstructionsWorkBitByBit : ∃ f : Bool → Bool → Bool, f = Bool.xor ∧ Instr.xor 0 1 = .xor 0 1 := ⟨_, rfl, rfl⟩

theorem witness_AddToIndexReportsOverflowInVF :
    0xFFF < ({ withRegs [(0, 1)] State.reset with i := 0xFFF } : State).i.toNat + ((withRegs [(0, 1)] State.reset).reg 0).toNat ∧
    ({ withRegs [(0, 1)] State.reset with i := 0xFFE } : State).i.toNat + ((withRegs [(0, 1)] State.reset).reg 0).toNat ≤ 0xFFF := by
  decide

theorem witness_StoreBcdWritesThreeDigits :
    Memory.wf (placed 0xF033).fontset (placed 0xF033).mem ∧ ({ placed 0xF033 with i := 0xFFD } : State).i.toNat + 2 ≤ 0xFFF := by
  decide

theorem witness_StoreRegistersWritesThemFromI :
    Memory.wf (placed 0xFF55).fontset (placed 0xFF55).mem ∧
    ({ placed 0xFF55 with i := 0xFF0 } : State).i.toNat + (15 : Reg).val ≤ 0xFFF := by decide

theorem witness_LoadRegistersReadsThemFromI :
    ({ State.reset with i := 0xFFF } : State).i.toNat + (0 : Reg).val ≤ 0xFFF := by decide

theorem witness_DataAccessesAboveMemoryFault :
    ({ State.reset with i := 0xFFF } : State).i.toNat ≤ 0xFFF ∧
    0xFFF < ({ State.reset with i := 0xFFF } : State).i.toNat + (2 : Rows).val - 1 ∧
    0xFFF < ({ State.reset with i := 0xFFE } : State).i.toNat + 2 ∧
    0xFFF < ({ State.reset with i := 0xFFF } : State).i.toNat + (1 : Reg).val := by decide

/-- V0 = 0x6A and V1 = 0x07 hold the word of `6A07`. -/
def storing : State := withRegs [(0, 0x6A), (1, 0x07)] { placed 0xF155 with i := 0x300 }

theorem witness_StoredInstructionIsFetched :
    storing.Inv ∧ ∃ t u : State, exec (.ldMemV 1) storing = .next t ∧
      encode (.ldImm 10 0x07) = storing.reg 0 ++ storing.reg 1 ∧ waits (.ldImm 10 0x07) t = false ∧
      exec (.ldImm 10 0x07) (t.jump 0x300) = .next u :=
  ⟨⟨by decide, by decide, by decide, by decide, rfl⟩, _, _, rfl, by decide, rfl, rfl⟩

theorem witness_KeyWaitReportsAPressedKey :
    (withKey 15 State.reset).pressed 15 = true ∧ ∀ k : Fin 16, State.reset.pressed k = false := by decide

theorem witness_SetSoundTimerWritesST :
    (withRegs [(0, 2)] State.reset).reg 0 = 2 ∧ (withRegs [(0, 1)] State.reset).reg 0 = 1 := by decide

theorem witness_InstructionErrorsAreTheListedOnes :
    ({ State.reset with i := 0xFFF } : State).i.toNat ≤ 0xFFF ∧
    faultOf (exec (.drw 0 0 2) { State.reset with i := 0xFFF }) = some (.memoryOutOfBounds 0x1000) := by decide

theorem witness_RegistersOutsideTheWriteColumnStay :
    ∃ t : State, exec (.addReg 0 1) State.reset = .next t ∧ (2 : Reg) ∉ [0, regVF] := ⟨_, rfl, by decide⟩

theorem witness_ResultsDependOnTheReadColumnOnly :
    agreeButRegs State.reset (withRegs [(2, 0x55)] State.reset) ∧
    (∀ r ∈ readsOf (.addReg 0 1), State.reset.reg r = (withRegs [(2, 0x55)] State.reset).reg r) ∧
    (∃ t : State, exec (.addReg 0 1) State.reset = .next t) ∧ faultOf (exec .ret State.reset) = some (.stackUnderflow 0x200) :=
  ⟨rfl, by decide, ⟨_, rfl⟩, by decide⟩

theorem witness_EachPartOfTheStateHasItsWriters :
    ∃ t : State, exec (.ldI 0x123) State.reset = .next t ∧ t.i ≠ State.reset.i := ⟨_, rfl, by decide⟩

theorem witness_StepKeepsKeysAndMovesThePc :
    ∃ t : State, step (placed 0x1200) = .next t ∧ t.pc = (placed 0x1200).pc := ⟨_, rfl, by decide⟩

theorem witness_SetKeyStateWritesOneKeyOrFails :
    (∃ t : State, State.reset.setKeyState 15 true = .ok t) ∧ State.reset.setKeyState 16 true = .error (.invalidKeyIndex 16) :=
  ⟨⟨_, rfl⟩, rfl⟩

theorem witness_LoadProgramCopiesOrFails :
    Memory.wf (placed 0x6001).fontset (placed 0x6001).mem ∧ 3584 < (List.replicate 3585 (0 : Byte)).length ∧
    (List.replicate 3584 (0 : Byte)).length ≤ 3584 := by
  rw [List.length_replicate, List.length_replicate]
  decide

theorem witness_DisplayCallsReadAndClearTheFlag :
    ({ machine := { State.reset with draw := true }, phase := .ready } : Session).phase ≠ .unreset := by decide

/-- The ordinary run: reset, load, step; a step without a load; a load that fails; and the same with a second load. -/
theorem witness_BrokenDutiesHaveNoMove :
    (Session.construct (placed 0x6001)).phase = .unreset ∧ HostCall.stepCycle ≠ .reset ∧
    (∃ c : Session, hostCalls (Session.construct (placed 0x6001)) [.reset, .loadProgram [0x60, 0x01], .stepCycle] = some c ∧
      c.phase = .running ∧ c.machine.faulted = false ∧ ∃ p, hostCall c (.setKeyState 0 true) = some p) ∧
    (∃ c : Session, hostCalls (Session.construct (placed 0x6001)) [.reset, .loadProgram [0x60, 0x01]] = some c ∧
      c.phase = .loaded) ∧
    HostCall.reset ∉ [HostCall.drawPending, .stepCycle] :=
  ⟨rfl, by decide, ⟨_, rfl, rfl, rfl, _, rfl⟩, ⟨_, rfl, rfl⟩, by decide⟩

theorem witness_EmptyProgramIsAnUnknownOpcode :
    (∃ t : State, State.reset.hostReset.loadProgram [] = .ok t) ∧
    ∃ t : State, State.reset.hostReset.loadProgram [0x00, 0x00, 0x60] = .ok t := ⟨⟨_, rfl⟩, _, rfl⟩

theorem witness_LoadedProgramRunsFromItsFirstInstruction :
    ∃ t u : State, State.reset.hostReset.loadProgram (encodeBytes (.ldImm 0 1) ++ [0x12, 0x02]) = .ok t ∧
      waits (.ldImm 0 1) t = false ∧ exec (.ldImm 0 1) t = .next u := ⟨_, _, rfl, rfl, rfl⟩

end Sys2Proof.Tests
end

section
/-! PROOFS. The reset (R42): what the reset memory and the reset framebuffer read as, what a load leaves unchanged, and the
value of every field. -/

namespace Sys2Proof.Machine

/-- Below 0x050 an unlisted address reads as the fontset (R37). -/
theorem Memory.unlisted_of_lt {font : Vector Byte 80} {a : Nat} (h : a < 80) : Memory.unlisted font a = font[a] :=
  dif_pos h

/-- From 0x050 on an unlisted address reads as 0 (R42). -/
theorem Memory.unlisted_of_ge {font : Vector Byte 80} {a : Nat} (h : 80 ≤ a) : Memory.unlisted font a = 0 :=
  dif_neg (Nat.not_lt.mpr h)

/-- A Machine whose memory lists nothing reads the reset contents everywhere. -/
theorem State.byteAt_of_mem_nil {s : State} (h : s.mem = []) (a : Nat) :
    s.byteAt a = Memory.unlisted s.fontset a := by
  rw [State.byteAt, h]
  rfl

@[simp] theorem pixelAt_clearFramebuffer (x : Fin 64) (y : Fin 32) : pixelAt clearFramebuffer x y = false := by
  simp [pixelAt, clearFramebuffer]

/-- A load that succeeds changes memory alone (R244). -/
theorem State.loadProgram_onlyMem {s t : State} {bytes : List Byte} (h : s.loadProgram bytes = .ok t) :
    { t with mem := s.mem } = s := by
  obtain ⟨-, rfl⟩ := State.loadProgram_eq_ok.mp h
  exact State.storeBytes_onlyMem bytes 0x200 s

/-- A load that succeeds keeps every byte below the load address (R244). -/
theorem State.byteAt_loadProgram_below {s t : State} {bytes : List Byte} (hwf : Memory.wf s.fontset s.mem)
    (h : s.loadProgram bytes = .ok t) {a : Nat} (ha : a < 0x200) : t.byteAt a = s.byteAt a := by
  obtain ⟨hfits, rfl⟩ := State.loadProgram_eq_ok.mp h
  exact State.byteAt_storeBytes_outside bytes 0x200 hwf (by omega) (.inl ha)

/-- The host's reset and the state the interface starts from differ at most in the model's counter of draws. -/
theorem State.eq_resetWith_of_reset {s r : State} (h : r = s.hostReset ∨ r = State.resetWith s.fontset) :
    r = { State.resetWith s.fontset with draws := r.draws } := by
  rcases h with rfl | rfl <;> rfl

/-- Settles O1: both resets are `resetWith` up to the counter of draws, whose fields are read off one by one; memory lists
nothing, so it reads the reset contents and is canonical, which is what the rules for a load need. -/
theorem resetGivesEveryFieldItsValue : Obligations.ResetGivesEveryFieldItsValue := by
  intro s r hr
  obtain ⟨n, rfl⟩ : ∃ n, r = { State.resetWith s.fontset with draws := n } := ⟨_, State.eq_resetWith_of_reset hr⟩
  refine ⟨fun a => ?fontset, fun a ha _ => ?aboveFontset, fun x => ?registers, rfl, rfl, rfl, fun k => ?stack, rfl, rfl,
    pixelAt_clearFramebuffer, rfl, fun k => ?keys, rfl, fun bytes t ht => ⟨?onlyMemory, fun a ha => ?belowProgram⟩⟩
  case fontset => exact (State.byteAt_of_mem_nil rfl a.val).trans (Memory.unlisted_of_lt a.isLt)
  case aboveFontset => exact (State.byteAt_of_mem_nil rfl a).trans (Memory.unlisted_of_ge ha)
  case registers => simp [State.reg, State.resetWith]
  case stack => simp [State.resetWith]
  case keys => simp [State.pressed, State.resetWith]
  case onlyMemory => exact State.loadProgram_onlyMem ht
  case belowProgram => exact State.byteAt_loadProgram_below (Memory.nil_wf s.fontset) ht ha

end Sys2Proof.Machine
end

section
/-! PROOFS. The tick and the beep (R97): the timers and the beep as numbers, and every way a cycle completes (R90, R94). -/

namespace Sys2Proof.Machine

/-- A timer above 0 loses exactly one in a tick (R97). -/
theorem toNat_tickDown_add_one {t : Byte} (h : 0 < t.toNat) : (tickDown t).toNat + 1 = t.toNat := by
  rw [toNat_tickDown]
  omega

/-- A timer at 0 does not wrap (R97). -/
theorem tickDown_eq_zero {t : Byte} (h : t.toNat = 0) : tickDown t = 0 :=
  if_pos (BitVec.eq_of_toNat_eq h)

/-- The beep condition on the number in ST (R97, R231). -/
theorem State.beeps_eq_true {s : State} : s.beeps = true ↔ s.st.toNat = 1 := by
  rw [State.beeps, beq_iff_eq, ← BitVec.toNat_inj]
  rfl

/-- Running an instruction completes exactly when it does not wait and answers a next state, which the tick then takes. -/
theorem runInstr_eq_completed {i : Instr} {s u : State} {beep : Bool} :
    runInstr i s = .completed beep u ↔
      waits i s = false ∧ ∃ t, exec i s = .next t ∧ beep = t.beeps ∧ u = t.tick := by
  unfold runInstr
  split
  · next hw => simp [hw]
  · next hw =>
    cases exec i s <;> simp [hw, eq_comm]

/-- Every way a cycle completes: the machine was not faulted, the fetch was in range, the word decoded, and the instruction
ran to the state whose tick and beep the cycle answers (R90, R94). -/
theorem cycle_eq_completed {s u : State} {beep : Bool} :
    cycle s = .completed beep u ↔
      s.faulted = false ∧ s.pc.toNat + 1 < 0x1000 ∧ ∃ i, decodeWord (s.wordAt s.pc.toNat) = .ok i ∧
        waits i s = false ∧ ∃ t, exec i s = .next t ∧ beep = t.beeps ∧ u = t.tick := by
  constructor
  · intro h
    unfold cycle at h
    split at h
    · cases h
    · next hf =>
      split at h
      · cases h
      · next w hw =>
        obtain ⟨hpc, rfl⟩ := State.fetch_eq_ok.mp hw
        split at h
        · cases h
        · next i hi => exact ⟨by simpa using hf, hpc, i, hi, runInstr_eq_completed.mp h⟩
  · rintro ⟨hf, hpc, i, hi, hrun⟩
    exact (cycle_of_decoded hf hpc hi).trans (runInstr_eq_completed.mpr hrun)

/-- `FX18` always answers a next state (R193). -/
theorem exec_ldSt (x : Reg) (s : State) : exec (.ldSt x) s = .next { s with st := s.reg x }.advance := rfl

/-- Settles O14: the timer clauses are the rule of `tickDown` at DT and at ST, the cycle's clause is read off the ways a cycle
completes, and an `FX18` that writes 0 leaves ST at 0, where nothing beeps. -/
theorem tickCountsDownAndBeeps : Obligations.TickCountsDownAndBeeps := by
  intro s
  refine ⟨toNat_tickDown_add_one, tickDown_eq_zero, toNat_tickDown_add_one, tickDown_eq_zero, rfl, State.beeps_eq_true,
    fun beep u hcycle => ?cycle, fun x hx => ⟨_, exec_ldSt x s, ?clearedSt⟩⟩
  case cycle =>
    obtain ⟨-, -, i, -, -, t, -, hbeep, hu⟩ := cycle_eq_completed.mp hcycle
    exact ⟨t, hbeep, hu⟩
  case clearedSt => simp [State.beeps, hx]

end Sys2Proof.Machine
end

section
/-! PROOFS. The display (R110): the word of `00E0` and what it answers. -/

namespace Sys2Proof.Machine

theorem encodedAs_cls : encodedAs .cls 0xFFFF 0x00E0 := ⟨by decide, by decide⟩

/-- `00E0` always answers a next state (R110). -/
theorem exec_cls (s : State) : exec .cls s = .next { s with fb := clearFramebuffer, draw := true }.advance := rfl

/-- Settles O19: `exec_cls` names the next state, whose framebuffer is the clear one; memory and fontset are the old ones, so
every byte reads the same, and the other fields are read off. -/
theorem clsClearsTheFramebuffer : Obligations.ClsClearsTheFramebuffer := by
  intro s
  refine ⟨encodedAs_cls, _, exec_cls s, pixelAt_clearFramebuffer, State.advance_draw _, State.advance_pc _,
    fun r _ => State.reg_advance _ r, State.advance_i _, ?memory, ⟨rfl, rfl⟩, ⟨rfl, rfl⟩, rfl, rfl, rfl⟩
  case memory => exact State.byteAt_congr (State.advance_mem _) (State.advance_fontset _)

end Sys2Proof.Machine
end

section
/-! PROOFS. The jumps (R121, R124): the words of format `FA`, a fetch out of range, the targets as numbers, and the frame of a
jump. -/

namespace Sys2Proof.Machine

/-- The word of an instruction of format `FA` (R73), when the decoder answers that instruction for every word with its primary
nibble (R77). -/
theorem encodedAs_of_encodeFA {c : Addr → Instr} {op : Nat} {nnn : Addr} (hop : op < 0x10)
    (henc : encode (c nnn) = encodeFA op nnn)
    (hdec : ∀ w, opField w = op → decodeOpcode w = some (c (nnnField w))) :
    encodedAs (c nnn) 0xF000 (BitVec.ofNat 16 (op * 0x1000)) := by
  obtain ⟨hfield, hnnn⟩ := fields_encodeFA hop nnn
  unfold encodedAs
  rw [henc]
  refine ⟨encodeFA_masked hop nnn, decodeWord_eq_ok.mpr ?_⟩
  rw [hdec _ hfield, hnnn]

theorem encodedAs_jp (nnn : Addr) : encodedAs (.jp nnn) 0xF000 0x1000 :=
  encodedAs_of_encodeFA (op := 0x1) (by decide) rfl fun w hw => by simp [decodeOpcode, hw]

theorem encodedAs_jpV0 (nnn : Addr) : encodedAs (.jpV0 nnn) 0xF000 0xB000 :=
  encodedAs_of_encodeFA (op := 0xB) (by decide) rfl fun w hw => by simp [decodeOpcode, hw]

/-- A fetch that fails is the outcome of the step (R54). -/
theorem step_of_fetch_error {t : State} {e : Fault} (hf : t.faulted = false) (hfetch : t.fetch = .error e) :
    step t = .fault e := by
  simp [step, cycle, hf, hfetch, outcomeOf]

/-- Past 0xFFE the second byte of the opcode lies outside memory (R54). -/
theorem nextFetchFails_of_pc {t : State} (hf : t.faulted = false) (hpc : 0xFFE < t.pc.toNat) : nextFetchFails t :=
  ⟨max t.pc.toNat 0x1000, step_of_fetch_error hf (State.fetch_eq_error.mpr ⟨by omega, rfl⟩)⟩

@[simp] theorem toNat_addrOperand (nnn : Addr) : (addrOperand nnn).toNat = nnn.toNat :=
  BitVec.toNat_setWidth_of_le (by decide)

/-- The target of `BNNN` does not wrap: 0xFFF and 0xFF add up to 0x10FE (R124). -/
theorem State.toNat_indexedTarget (s : State) (nnn : Addr) :
    (s.indexedTarget nnn).toNat = nnn.toNat + (s.reg 0).toNat := by
  have hreg : ((s.reg 0).setWidth 16).toNat = (s.reg 0).toNat := BitVec.toNat_setWidth_of_le (by decide)
  have := nnn.isLt
  have := (s.reg 0).isLt
  rw [State.indexedTarget, BitVec.toNat_add, toNat_addrOperand, hreg]
  omega

/-- A jump writes PC alone. -/
theorem State.onlyRegs_jump (s : State) (target : Word) : onlyRegs [] s (s.jump target) :=
  ⟨fun r _ => s.reg_jump target r, s.jump_i target, s.byteAt_jump target, ⟨rfl, rfl⟩, ⟨rfl, rfl⟩, ⟨rfl, rfl⟩, rfl, rfl, rfl⟩

/-- `1NNN` always answers a next state (R121). -/
theorem exec_jp (nnn : Addr) (s : State) : exec (.jp nnn) s = .next (s.jump (addrOperand nnn)) := rfl

/-- `BNNN` always answers a next state (R124). -/
theorem exec_jpV0 (nnn : Addr) (s : State) : exec (.jpV0 nnn) s = .next (s.jump (s.indexedTarget nnn)) := rfl

/-- Settles O22: the next state is a jump to NNN, which as a number is the operand; at 0xFFF the fetch is out of range. -/
theorem jpSetsThePc : Obligations.JpSetsThePc := by
  intro nnn s
  have hpc : (s.jump (addrOperand nnn)).pc.toNat = nnn.toNat := toNat_addrOperand nnn
  exact ⟨encodedAs_jp nnn, _, exec_jp nnn s, hpc, s.onlyRegs_jump _, fun hnnn hf =>
    nextFetchFails_of_pc hf (by omega)⟩

/-- Settles O23: the next state is a jump to the exact sum, which the widths of NNN and V0 bound; past 0xFFE the fetch is out
of range. -/
theorem jpV0AddsV0ToTheTarget : Obligations.JpV0AddsV0ToTheTarget := by
  intro nnn s
  have hpc : (s.jump (s.indexedTarget nnn)).pc.toNat = nnn.toNat + (s.reg 0).toNat := s.toNat_indexedTarget nnn
  have hnnn := nnn.isLt
  have hreg := (s.reg 0).isLt
  exact ⟨encodedAs_jpV0 nnn, _, exec_jpV0 nnn s, hpc, by omega, s.onlyRegs_jump _, fun hout hf =>
    nextFetchFails_of_pc hf hout⟩

end Sys2Proof.Machine
end

section
/-! PROOFS. The skips on registers and immediates (R130–R133, R136): the words of formats `FI` and `FR`, what `Skip` answers,
and the comparison each instruction hands to it. -/

namespace Sys2Proof.Machine

/-- The word of an instruction of format `FI` (R73), when the decoder answers that instruction for every word with its primary
nibble (R77). -/
theorem encodedAs_of_encodeFI {c : Reg → Byte → Instr} {op : Nat} {x : Reg} {nn : Byte} (hop : op < 0x10)
    (henc : encode (c x nn) = encodeFI op x nn.toNat)
    (hdec : ∀ w, opField w = op → decodeOpcode w = some (c (xField w) (nnField w))) :
    encodedAs (c x nn) 0xF000 (BitVec.ofNat 16 (op * 0x1000)) := by
  obtain ⟨hfield, hx, hnn⟩ := fields_encodeFI hop x nn
  unfold encodedAs
  rw [henc]
  refine ⟨encodeFI_masked hop x nn.isLt, decodeWord_eq_ok.mpr ?_⟩
  rw [hdec _ hfield, hx, hnn]

/-- The word of an instruction of format `FR` (R73), when the decoder answers that instruction for every word with its primary
and its low nibble (R77). -/
theorem encodedAs_of_encodeFR {c : Reg → Reg → Instr} {op low : Nat} {x y : Reg} (hop : op < 0x10) (hlow : low < 0x10)
    (henc : encode (c x y) = encodeFR op x y low)
    (hdec : ∀ w, opField w = op → (nField w).val = low → decodeOpcode w = some (c (xField w) (yField w))) :
    encodedAs (c x y) 0xF00F (BitVec.ofNat 16 (op * 0x1000 + low)) := by
  obtain ⟨hfield, hx, hy, hn⟩ := fields_encodeFR hop x y hlow
  unfold encodedAs
  rw [henc]
  refine ⟨encodeFR_masked hop x y hlow, decodeWord_eq_ok.mpr ?_⟩
  rw [hdec _ hfield hn, hx, hy]

theorem encodedAs_seImm (x : Reg) (nn : Byte) : encodedAs (.seImm x nn) 0xF000 0x3000 :=
  encodedAs_of_encodeFI (op := 0x3) (by decide) rfl fun w hw => by simp [decodeOpcode, hw]

theorem encodedAs_sneImm (x : Reg) (nn : Byte) : encodedAs (.sneImm x nn) 0xF000 0x4000 :=
  encodedAs_of_encodeFI (op := 0x4) (by decide) rfl fun w hw => by simp [decodeOpcode, hw]

theorem encodedAs_seReg (x y : Reg) : encodedAs (.seReg x y) 0xF00F 0x5000 :=
  encodedAs_of_encodeFR (op := 0x5) (low := 0) (by decide) (by decide) rfl fun w hw hn => by simp [decodeOpcode, hw, hn]

theorem encodedAs_sneReg (x y : Reg) : encodedAs (.sneReg x y) 0xF00F 0x9000 :=
  encodedAs_of_encodeFR (op := 0x9) (low := 0) (by decide) (by decide) rfl fun w hw hn => by simp [decodeOpcode, hw, hn]

/-- `Skip` is a jump in both of its cases, so it writes PC alone (R136). -/
theorem State.onlyRegs_skipIf (s : State) (c : Bool) : onlyRegs [] s (s.skipIf c) := by
  cases c with
  | false => exact s.onlyRegs_jump (s.pc + 2)
  | true => exact s.onlyRegs_jump (s.pc + 4)

/-- `3XNN` always answers a next state (R130). -/
theorem exec_seImm (x : Reg) (nn : Byte) (s : State) : exec (.seImm x nn) s = .next (s.skipIf (s.reg x == nn)) := rfl

/-- `4XNN` always answers a next state (R131). -/
theorem exec_sneImm (x : Reg) (nn : Byte) (s : State) : exec (.sneImm x nn) s = .next (s.skipIf (s.reg x != nn)) := rfl

/-- `5XY0` always answers a next state (R132). -/
theorem exec_seReg (x y : Reg) (s : State) : exec (.seReg x y) s = .next (s.skipIf (s.reg x == s.reg y)) := rfl

/-- `9XY0` always answers a next state (R133). -/
theorem exec_sneReg (x y : Reg) (s : State) : exec (.sneReg x y) s = .next (s.skipIf (s.reg x != s.reg y)) := rfl

/-- An instruction that ends in `Skip` moves PC by four or by two, writes nothing else, and leaves a fetch out of range when
PC passes 0xFFE (R136). -/
theorem exec_skip_outcome {i : Instr} {s : State} {c : Bool} {taken : Prop} (hexec : exec i s = .next (s.skipIf c))
    (hc : c = true ↔ taken) :
    ∃ t : State, exec i s = .next t ∧ (taken → t.pc = s.pc + 4) ∧ (¬ taken → t.pc = s.pc + 2) ∧ onlyRegs [] s t ∧
      (0xFFE < t.pc.toNat → s.faulted = false → nextFetchFails t) := by
  refine ⟨_, hexec, fun htaken => ?four, fun hnot => ?two, s.onlyRegs_skipIf c, fun hpc hf => ?fetch⟩
  case four => rw [State.skipIf_pc, if_pos (hc.mpr htaken)]
  case two => rw [State.skipIf_pc, if_neg (hnot ∘ hc.mp)]
  case fetch => exact nextFetchFails_of_pc ((s.skipIf_faulted c).trans hf) hpc

/-- Settles O28: each of the four instructions hands its comparison, as a Boolean test, to `Skip`, whose outcome
`exec_skip_outcome` states once. -/
theorem compareSkipsMoveThePcByFourOrTwo : Obligations.CompareSkipsMoveThePcByFourOrTwo := by
  intro x y nn s
  refine ⟨encodedAs_seImm x nn, encodedAs_sneImm x nn, encodedAs_seReg x y, encodedAs_sneReg x y, ?_⟩
  rintro i taken (⟨rfl, rfl⟩ | ⟨rfl, rfl⟩ | ⟨rfl, rfl⟩ | ⟨rfl, rfl⟩)
  · exact exec_skip_outcome (exec_seImm x nn s) beq_iff_eq
  · exact exec_skip_outcome (exec_sneImm x nn s) bne_iff_ne
  · exact exec_skip_outcome (exec_seReg x y s) beq_iff_eq
  · exact exec_skip_outcome (exec_sneReg x y s) bne_iff_ne

end Sys2Proof.Machine
end

section
/-! PROOFS. The rules that write one register (R140–R142): the words of `6XNN`, `7XNN` and `8XY0`, and what `setResult` writes
and leaves unchanged. -/

namespace Sys2Proof.Machine

theorem encodedAs_ldImm (x : Reg) (nn : Byte) : encodedAs (.ldImm x nn) 0xF000 0x6000 :=
  encodedAs_of_encodeFI (op := 0x6) (by decide) rfl fun w hw => by simp [decodeOpcode, hw]

theorem encodedAs_addImm (x : Reg) (nn : Byte) : encodedAs (.addImm x nn) 0xF000 0x7000 :=
  encodedAs_of_encodeFI (op := 0x7) (by decide) rfl fun w hw => by simp [decodeOpcode, hw]

theorem encodedAs_ldReg (x y : Reg) : encodedAs (.ldReg x y) 0xF00F 0x8000 :=
  encodedAs_of_encodeFR (op := 0x8) (low := 0) (by decide) (by decide) rfl fun w hw hn => by
    simp [decodeOpcode, decodeFamily8, hw, hn]

@[simp] theorem State.reg_setResult_same (s : State) (x : Reg) (w : Byte) : (s.setResult x w).reg x = w :=
  (s.reg_setResult x x w).trans (if_pos rfl)

/-- A result in VX leaves all but VX and PC unchanged; VF is no exception. -/
theorem State.onlyRegs_setResult (s : State) (x : Reg) (w : Byte) : onlyRegs [x] s (s.setResult x w) := by
  refine ⟨fun r hr => ?registers, s.setResult_i x w, s.byteAt_setResult x w, ⟨rfl, rfl⟩, ⟨rfl, rfl⟩, ⟨rfl, rfl⟩, rfl, rfl, rfl⟩
  case registers => rw [State.reg_setResult, if_neg (List.mem_singleton.not.mp hr)]

/-- `6XNN` always answers a next state (R140). -/
theorem exec_ldImm (x : Reg) (nn : Byte) (s : State) : exec (.ldImm x nn) s = .next (s.setResult x nn) := rfl

/-- `7XNN` always answers a next state (R141). -/
theorem exec_addImm (x : Reg) (nn : Byte) (s : State) : exec (.addImm x nn) s = .next (s.setResult x (s.reg x + nn)) := rfl

/-- `8XY0` always answers a next state (R142). -/
theorem exec_ldReg (x y : Reg) (s : State) : exec (.ldReg x y) s = .next (s.setResult x (s.reg y)) := rfl

/-- Settles O30: the next state is the one with result NN in VX, and `setResult` writes VX and PC alone. -/
theorem loadImmediateWritesTheByte : Obligations.LoadImmediateWritesTheByte := by
  intro x nn s
  exact ⟨encodedAs_ldImm x nn, _, exec_ldImm x nn s, s.reg_setResult_same x nn, s.setResult_pc x nn,
    s.onlyRegs_setResult x nn⟩

/-- Settles O31: the result is the sum of two bytes, which as a number is the sum modulo 256; `setResult` writes VX and PC
alone, so a carry leaves no trace in VF. -/
theorem addImmediateWrapsWithoutAFlag : Obligations.AddImmediateWrapsWithoutAFlag := by
  intro x nn s
  have hsum : ((s.setResult x (s.reg x + nn)).reg x).toNat = ((s.reg x).toNat + nn.toNat) % 256 := by
    rw [State.reg_setResult_same, BitVec.toNat_add]
  exact ⟨encodedAs_addImm x nn, _, exec_addImm x nn s, hsum, s.setResult_pc x _, s.onlyRegs_setResult x _⟩

/-- Settles O32: the next state is the one with the old VY in VX, and `setResult` writes VX and PC alone. -/
theorem loadRegisterCopies : Obligations.LoadRegisterCopies := by
  intro x y s
  exact ⟨encodedAs_ldReg x y, _, exec_ldReg x y s, s.reg_setResult_same x _, s.setResult_pc x _, s.onlyRegs_setResult x _⟩

end Sys2Proof.Machine
end

section
/-! PROOFS. The loads of I (R170, R172): the words of format `FX`, the glyph address as a number, and what an instruction that
writes I alone answers. -/

namespace Sys2Proof.Machine

/-- The word of an instruction of format `FX` (R73), when the decoder answers that instruction for every word with its primary
nibble and its low byte (R77). -/
theorem encodedAs_of_encodeFX {c : Reg → Instr} {op low : Nat} {x : Reg} (hop : op < 0x10) (hlow : low < 0x100)
    (henc : encode (c x) = encodeFI op x low)
    (hdec : ∀ w, opField w = op → (nnField w).toNat = low → decodeOpcode w = some (c (xField w))) :
    encodedAs (c x) 0xF0FF (BitVec.ofNat 16 (op * 0x1000 + low)) := by
  obtain ⟨hfield, hx, hnn⟩ := fields_encodeFX hop x hlow
  unfold encodedAs
  rw [henc]
  refine ⟨encodeFX_masked hop x hlow, decodeWord_eq_ok.mpr ?_⟩
  rw [hdec _ hfield hnn, hx]

theorem encodedAs_ldI (nnn : Addr) : encodedAs (.ldI nnn) 0xF000 0xA000 :=
  encodedAs_of_encodeFA (op := 0xA) (by decide) rfl fun w hw => by simp [decodeOpcode, hw]

theorem encodedAs_ldF (x : Reg) : encodedAs (.ldF x) 0xF0FF 0xF029 :=
  encodedAs_of_encodeFX (op := 0xF) (low := 0x29) (by decide) (by decide) rfl fun w hw hnn => by
    simp [decodeOpcode, decodeFamilyF, hw, hnn]

/-- Five times a byte is at most 0x4FB, so the address of a glyph is exact for every byte (R172). -/
@[simp] theorem toNat_glyphAddress (a : Byte) : (glyphAddress a).toNat = 5 * a.toNat := by
  have := a.isLt
  rw [glyphAddress, BitVec.toNat_ofNat]
  omega

/-- `ANNN` always answers a next state (R170). -/
theorem exec_ldI (nnn : Addr) (s : State) : exec (.ldI nnn) s = .next { s with i := addrOperand nnn }.advance := rfl

/-- `FX29` always answers a next state (R172). -/
theorem exec_ldF (x : Reg) (s : State) : exec (.ldF x) s = .next { s with i := glyphAddress (s.reg x) }.advance := rfl

/-- An instruction that writes an address to I and advances PC leaves everything else unchanged. -/
theorem exec_loadIndex_outcome {i : Instr} {s : State} {address : Word} {n : Nat}
    (hexec : exec i s = .next { s with i := address }.advance) (hn : address.toNat = n) :
    ∃ t : State, exec i s = .next t ∧ t.i.toNat = n ∧ t.pc = s.pc + 2 ∧ sameRegsBut [] s t ∧
      sameMemory s t ∧ sameDisplay s t ∧ sameStack s t ∧ sameTimers s t ∧ sameFixed s t := by
  refine ⟨_, hexec, hn, State.advance_pc _, fun r _ => State.reg_advance _ r, ?memory, ⟨rfl, rfl⟩, ⟨rfl, rfl⟩, ⟨rfl, rfl⟩,
    rfl, rfl, rfl⟩
  case memory => exact State.byteAt_congr (State.advance_mem _) (State.advance_fontset _)

/-- Settles O38: the address loaded is NNN widened to a word, which as a number is NNN itself. -/
theorem loadIndexWritesTheAddress : Obligations.LoadIndexWritesTheAddress := by
  intro nnn s
  exact ⟨encodedAs_ldI nnn, exec_loadIndex_outcome (exec_ldI nnn s) (toNat_addrOperand nnn)⟩

/-- Settles O40: the address loaded is the glyph address of the whole of VX, which is five times VX and never wraps. -/
theorem loadGlyphAddressIsFiveTimesVX : Obligations.LoadGlyphAddressIsFiveTimesVX := by
  intro x s
  exact ⟨encodedAs_ldF x, exec_loadIndex_outcome (exec_ldF x s) (toNat_glyphAddress (s.reg x))⟩

end Sys2Proof.Machine
end

section
/-! PROOFS. The write of the delay timer (R192): the word of `FX15`, what it answers, and DT after the same cycle's tick. -/

namespace Sys2Proof.Machine

theorem encodedAs_ldDt (x : Reg) : encodedAs (.ldDt x) 0xF0FF 0xF015 :=
  encodedAs_of_encodeFX (op := 0xF) (low := 0x15) (by decide) (by decide) rfl fun w hw hnn => by
    simp [decodeOpcode, decodeFamilyF, hw, hnn]

/-- `FX15` always answers a next state (R192). -/
theorem exec_ldDt (x : Reg) (s : State) : exec (.ldDt x) s = .next { s with dt := s.reg x }.advance := rfl

/-- Settles O47: `exec_ldDt` names the next state, whose DT is VX, so the tick leaves what `tickDown` makes of VX; memory and
fontset are the old ones, so every byte reads the same, and the other fields are read off. -/
theorem setDelayTimerWritesDT : Obligations.SetDelayTimerWritesDT := by
  intro x s
  refine ⟨encodedAs_ldDt x, _, exec_ldDt x s, State.advance_dt _, State.advance_st _, State.advance_pc _, ?tickedDt,
    fun r _ => State.reg_advance _ r, State.advance_i _, ?memory, ⟨rfl, rfl⟩, ⟨rfl, rfl⟩, rfl, rfl, rfl⟩
  case tickedDt => rw [State.tick_dt, State.advance_dt, toNat_tickDown]
  case memory => exact State.byteAt_congr (State.advance_mem _) (State.advance_fontset _)

end Sys2Proof.Machine
end

section
/-! PROOFS. The key state (R230): the failing call of `set_key_state`, and what the keys read as after one that is done. -/

namespace Sys2Proof.Machine

/-- A key that is not set: the index names none. -/
theorem State.setKeyState_eq_error {s : State} {index : Nat} {pressed : Bool} {e : HostError} :
    s.setKeyState index pressed = .error e ↔ 16 ≤ index ∧ e = .invalidKeyIndex index := by
  unfold State.setKeyState
  split_ifs with h
  · simp [h]
  · simp [Nat.le_of_not_lt h, eq_comm (a := e)]

/-- The key whose index was set reads the value given. -/
theorem State.pressed_setKey_same (s : State) (k : Fin 16) (pressed : Bool) :
    State.pressed { s with key := s.key.set k pressed } k = pressed :=
  Vector.getElem_set_self k.isLt

/-- A key other than the one whose index was set reads what it read before. -/
theorem State.pressed_setKey_of_ne {s : State} {k : Fin 16} {index : Nat} (hindex : index < 16) (pressed : Bool)
    (hk : k.val ≠ index) : State.pressed { s with key := s.key.set index pressed } k = s.pressed k :=
  Vector.getElem_set_ne hindex k.isLt hk.symm

/-- Settles O55: the call fails exactly when the index names no key; else its answer differs from the old state in the key
state alone, and there at that index alone. -/
theorem setKeyStateWritesOneKeyOrFails : Obligations.SetKeyStateWritesOneKeyOrFails := by
  intro index pressed s
  refine ⟨fun h => State.setKeyState_eq_error.mpr ⟨h, rfl⟩,
    fun h => ⟨_, State.setKeyState_eq_ok.mpr ⟨h, rfl⟩, fun k => ⟨?same, State.pressed_setKey_of_ne h pressed⟩, rfl⟩⟩
  case same =>
    rintro rfl
    exact s.pressed_setKey_same k pressed

end Sys2Proof.Machine
end

section
/-! PROOFS. The program load (R243, R244): the bytes of the image after a load that succeeds, and the bytes outside it. -/

namespace Sys2Proof.Machine

/-- A load that succeeds puts byte `k` of the image at 0x200 + `k` (R244): the image fits below 0x1000, so no byte is dropped. -/
theorem State.byteAt_loadProgram_image {s t : State} {bytes : List Byte} (hwf : Memory.wf s.fontset s.mem)
    (h : s.loadProgram bytes = .ok t) {k : Nat} (hk : k < bytes.length) : t.byteAt (0x200 + k) = bytes.getD k 0 := by
  obtain ⟨hfits, rfl⟩ := State.loadProgram_eq_ok.mp h
  exact State.byteAt_storeBytes_inside bytes 0x200 hwf (by omega) hk

/-- A load that succeeds keeps every byte before and after the image (R244). -/
theorem State.sameMemoryOutside_loadProgram {s t : State} {bytes : List Byte} (hwf : Memory.wf s.fontset s.mem)
    (h : s.loadProgram bytes = .ok t) : sameMemoryOutside 0x200 bytes.length s t := by
  obtain ⟨hfits, rfl⟩ := State.loadProgram_eq_ok.mp h
  exact fun b hb => State.byteAt_storeBytes_outside bytes 0x200 hwf (by omega) hb

/-- Settles O56: the call fails exactly when the image does not fit; else its answer reads the image from 0x200 on and the old
bytes elsewhere, and differs from the old state in memory alone. -/
theorem loadProgramCopiesOrFails : Obligations.LoadProgramCopiesOrFails := by
  intro bytes s hwf
  refine ⟨fun htooLarge => State.loadProgram_eq_error.mpr ⟨htooLarge, rfl⟩, fun hfits => ?_⟩
  have hload : s.loadProgram bytes = .ok (s.storeBytes 0x200 bytes) := State.loadProgram_eq_ok.mpr ⟨hfits, rfl⟩
  exact ⟨_, hload, fun _ => State.byteAt_loadProgram_image hwf hload, State.sameMemoryOutside_loadProgram hwf hload,
    State.loadProgram_onlyMem hload⟩

end Sys2Proof.Machine
end

section
/-! PROOFS. The encoder against the decoder (R70–R77): the word of every instruction that no section above gives, and the
round trips in both directions. -/

namespace Sys2Proof.Machine

/-! ### Families 8, E and F: the primary nibble leaves the choice to the low nibble or byte (R76) -/

theorem decodeOpcode_of_op8 {w : Word} (h : opField w = 0x8) : decodeOpcode w = decodeFamily8 w := by
  simp [decodeOpcode, h]

theorem decodeOpcode_of_opE {w : Word} (h : opField w = 0xE) : decodeOpcode w = decodeFamilyE w := by
  simp [decodeOpcode, h]

theorem decodeOpcode_of_opF {w : Word} (h : opField w = 0xF) : decodeOpcode w = decodeFamilyF w := by
  simp [decodeOpcode, h]

/-- The word of an instruction `8XYk`, when family 8 answers that instruction for the low nibble `k`. -/
theorem encodedAs_family8 {c : Reg → Reg → Instr} {low : Nat} {x y : Reg} (hlow : low < 0x10)
    (henc : encode (c x y) = encodeFR 0x8 x y low)
    (hdec : ∀ w, (nField w).val = low → decodeFamily8 w = some (c (xField w) (yField w))) :
    encodedAs (c x y) 0xF00F (BitVec.ofNat 16 (0x8 * 0x1000 + low)) :=
  encodedAs_of_encodeFR (by decide) hlow henc fun w hw hn => (decodeOpcode_of_op8 hw).trans (hdec w hn)

/-- The word of an instruction `EXkk`, when family E answers that instruction for the low byte `kk`. -/
theorem encodedAs_familyE {c : Reg → Instr} {low : Nat} {x : Reg} (hlow : low < 0x100)
    (henc : encode (c x) = encodeFI 0xE x low)
    (hdec : ∀ w, (nnField w).toNat = low → decodeFamilyE w = some (c (xField w))) :
    encodedAs (c x) 0xF0FF (BitVec.ofNat 16 (0xE * 0x1000 + low)) :=
  encodedAs_of_encodeFX (by decide) hlow henc fun w hw hn => (decodeOpcode_of_opE hw).trans (hdec w hn)

/-- The word of an instruction `FXkk`, when family F answers that instruction for the low byte `kk`. -/
theorem encodedAs_familyF {c : Reg → Instr} {low : Nat} {x : Reg} (hlow : low < 0x100)
    (henc : encode (c x) = encodeFI 0xF x low)
    (hdec : ∀ w, (nnField w).toNat = low → decodeFamilyF w = some (c (xField w))) :
    encodedAs (c x) 0xF0FF (BitVec.ofNat 16 (0xF * 0x1000 + low)) :=
  encodedAs_of_encodeFX (by decide) hlow henc fun w hw hn => (decodeOpcode_of_opF hw).trans (hdec w hn)

/-! ### The words -/

theorem encodedAs_ret : encodedAs .ret 0xFFFF 0x00EE := ⟨by decide, by decide⟩

theorem encodedAs_call (nnn : Addr) : encodedAs (.call nnn) 0xF000 0x2000 :=
  encodedAs_of_encodeFA (op := 0x2) (by decide) rfl fun w hw => by simp [decodeOpcode, hw]

theorem encodedAs_rnd (x : Reg) (nn : Byte) : encodedAs (.rnd x nn) 0xF000 0xC000 :=
  encodedAs_of_encodeFI (op := 0xC) (by decide) rfl fun w hw => by simp [decodeOpcode, hw]

theorem encodedAs_or (x y : Reg) : encodedAs (.or x y) 0xF00F 0x8001 :=
  encodedAs_family8 (low := 0x1) (by decide) rfl fun w hn => by simp [decodeFamily8, hn]

theorem encodedAs_and (x y : Reg) : encodedAs (.and x y) 0xF00F 0x8002 :=
  encodedAs_family8 (low := 0x2) (by decide) rfl fun w hn => by simp [decodeFamily8, hn]

theorem encodedAs_xor (x y : Reg) : encodedAs (.xor x y) 0xF00F 0x8003 :=
  encodedAs_family8 (low := 0x3) (by decide) rfl fun w hn => by simp [decodeFamily8, hn]

theorem encodedAs_addReg (x y : Reg) : encodedAs (.addReg x y) 0xF00F 0x8004 :=
  encodedAs_family8 (low := 0x4) (by decide) rfl fun w hn => by simp [decodeFamily8, hn]

theorem encodedAs_sub (x y : Reg) : encodedAs (.sub x y) 0xF00F 0x8005 :=
  encodedAs_family8 (low := 0x5) (by decide) rfl fun w hn => by simp [decodeFamily8, hn]

theorem encodedAs_shr (x y : Reg) : encodedAs (.shr x y) 0xF00F 0x8006 :=
  encodedAs_family8 (low := 0x6) (by decide) rfl fun w hn => by simp [decodeFamily8, hn]

theorem encodedAs_subn (x y : Reg) : encodedAs (.subn x y) 0xF00F 0x8007 :=
  encodedAs_family8 (low := 0x7) (by decide) rfl fun w hn => by simp [decodeFamily8, hn]

theorem encodedAs_shl (x y : Reg) : encodedAs (.shl x y) 0xF00F 0x800E :=
  encodedAs_family8 (low := 0xE) (by decide) rfl fun w hn => by simp [decodeFamily8, hn]

theorem encodedAs_skp (x : Reg) : encodedAs (.skp x) 0xF0FF 0xE09E :=
  encodedAs_familyE (low := 0x9E) (by decide) rfl fun w hn => by simp [decodeFamilyE, hn]

theorem encodedAs_sknp (x : Reg) : encodedAs (.sknp x) 0xF0FF 0xE0A1 :=
  encodedAs_familyE (low := 0xA1) (by decide) rfl fun w hn => by simp [decodeFamilyE, hn]

theorem encodedAs_ldVDt (x : Reg) : encodedAs (.ldVDt x) 0xF0FF 0xF007 :=
  encodedAs_familyF (low := 0x07) (by decide) rfl fun w hn => by simp [decodeFamilyF, hn]

theorem encodedAs_ldVK (x : Reg) : encodedAs (.ldVK x) 0xF0FF 0xF00A :=
  encodedAs_familyF (low := 0x0A) (by decide) rfl fun w hn => by simp [decodeFamilyF, hn]

theorem encodedAs_ldSt (x : Reg) : encodedAs (.ldSt x) 0xF0FF 0xF018 :=
  encodedAs_familyF (low := 0x18) (by decide) rfl fun w hn => by simp [decodeFamilyF, hn]

theorem encodedAs_addI (x : Reg) : encodedAs (.addI x) 0xF0FF 0xF01E :=
  encodedAs_familyF (low := 0x1E) (by decide) rfl fun w hn => by simp [decodeFamilyF, hn]

theorem encodedAs_ldB (x : Reg) : encodedAs (.ldB x) 0xF0FF 0xF033 :=
  encodedAs_familyF (low := 0x33) (by decide) rfl fun w hn => by simp [decodeFamilyF, hn]

theorem encodedAs_ldMemV (x : Reg) : encodedAs (.ldMemV x) 0xF0FF 0xF055 :=
  encodedAs_familyF (low := 0x55) (by decide) rfl fun w hn => by simp [decodeFamilyF, hn]

theorem encodedAs_ldVMem (x : Reg) : encodedAs (.ldVMem x) 0xF0FF 0xF065 :=
  encodedAs_familyF (low := 0x65) (by decide) rfl fun w hn => by simp [decodeFamilyF, hn]

/-- `DXYN` is the one word whose low nibble is an operand (R73's format `FD`). -/
theorem encodedAs_drw (x y : Reg) (n : Rows) : encodedAs (.drw x y n) 0xF000 0xD000 := by
  obtain ⟨hop, hx, hy, hn⟩ := fields_encodeFR (op := 0xD) (by decide) x y n.isLt
  refine ⟨encodeFD_masked (by decide) x y n, decodeWord_eq_ok.mpr ?_⟩
  simp [encode, decodeOpcode, hop, hx, hy, Fin.ext hn]

/-! ### Decode after encode -/

theorem decodeWord_encode (i : Instr) : decodeWord (encode i) = .ok i := by
  cases i with
  | cls => exact encodedAs_cls.2
  | ret => exact encodedAs_ret.2
  | jp nnn => exact (encodedAs_jp nnn).2
  | call nnn => exact (encodedAs_call nnn).2
  | seImm x nn => exact (encodedAs_seImm x nn).2
  | sneImm x nn => exact (encodedAs_sneImm x nn).2
  | seReg x y => exact (encodedAs_seReg x y).2
  | ldImm x nn => exact (encodedAs_ldImm x nn).2
  | addImm x nn => exact (encodedAs_addImm x nn).2
  | ldReg x y => exact (encodedAs_ldReg x y).2
  | or x y => exact (encodedAs_or x y).2
  | and x y => exact (encodedAs_and x y).2
  | xor x y => exact (encodedAs_xor x y).2
  | addReg x y => exact (encodedAs_addReg x y).2
  | sub x y => exact (encodedAs_sub x y).2
  | shr x y => exact (encodedAs_shr x y).2
  | subn x y => exact (encodedAs_subn x y).2
  | shl x y => exact (encodedAs_shl x y).2
  | sneReg x y => exact (encodedAs_sneReg x y).2
  | ldI nnn => exact (encodedAs_ldI nnn).2
  | jpV0 nnn => exact (encodedAs_jpV0 nnn).2
  | rnd x nn => exact (encodedAs_rnd x nn).2
  | drw x y n => exact (encodedAs_drw x y n).2
  | skp x => exact (encodedAs_skp x).2
  | sknp x => exact (encodedAs_sknp x).2
  | ldVDt x => exact (encodedAs_ldVDt x).2
  | ldVK x => exact (encodedAs_ldVK x).2
  | ldDt x => exact (encodedAs_ldDt x).2
  | ldSt x => exact (encodedAs_ldSt x).2
  | addI x => exact (encodedAs_addI x).2
  | ldF x => exact (encodedAs_ldF x).2
  | ldB x => exact (encodedAs_ldB x).2
  | ldMemV x => exact (encodedAs_ldMemV x).2
  | ldVMem x => exact (encodedAs_ldVMem x).2

theorem decode_encodeBytes (i : Instr) (rest : List Byte) : decode (encodeBytes i ++ rest) = .ok (i, rest) := by
  rw [encodeBytes, decode_wordBytes, decodeWord_encode]
  rfl

theorem toNat_byte_lt (nn : Byte) : nn.toNat < 0x100 := nn.isLt

theorem toNat_addr_lt (nnn : Addr) : nnn.toNat < 0x1000 := nnn.isLt

/-- The types of an instruction's operands are as wide as their fields (R71). -/
theorem wf_eq_true (i : Instr) : i.wf = true := by
  cases i <;> simp [Instr.wf, formatOf, operandsOf, operandsFit, toNat_byte_lt, toNat_addr_lt]

/-- Settles O6: each instruction's word decodes to it by the lemma on that word, and decoding the word's two bytes at the head of
a string is decoding the word. -/
theorem decodeOfEncodeIsTheInstruction : Obligations.DecodeOfEncodeIsTheInstruction := fun i =>
  ⟨wf_eq_true i, decodeWord_encode i, decode_encodeBytes i⟩

/-! ### Encode after decode: a word is put together again from its fields -/

theorem encodeF0_nnnField {w : Word} {k : Nat} (hop : opField w = 0) (hk : (nnnField w).toNat = k) : encodeF0 k = w := by
  obtain ⟨hw, -, hnnn, -⟩ := word_nibbles w
  have := w.isLt
  apply BitVec.eq_of_toNat_eq
  rw [encodeF0_toNat (by omega)]
  omega

theorem encodeFA_nnnField {w : Word} {op : Nat} (hop : opField w = op) : encodeFA op (nnnField w) = w := by
  obtain ⟨hw, -, hnnn, hlt⟩ := word_nibbles w
  apply BitVec.eq_of_toNat_eq
  rw [encodeFA_toNat (by omega)]
  omega

theorem encodeFI_nnField {w : Word} {op low : Nat} (hop : opField w = op) (hlow : (nnField w).toNat = low) :
    encodeFI op (xField w) low = w := by
  obtain ⟨hw, hnn, -, hlt⟩ := word_nibbles w
  have := (nnField w).isLt
  apply BitVec.eq_of_toNat_eq
  rw [encodeFI_toNat (by omega) _ (by omega)]
  omega

theorem encodeFR_nField {w : Word} {op low : Nat} (hop : opField w = op) (hlow : (nField w).val = low) :
    encodeFR op (xField w) (yField w) low = w := by
  obtain ⟨hw, -, -, hlt⟩ := word_nibbles w
  have := (nField w).isLt
  apply BitVec.eq_of_toNat_eq
  rw [encodeFR_toNat (by omega) _ _ (by omega)]
  omega

theorem encode_of_decodeFamily0 {w : Word} {i : Instr} (hop : opField w = 0x0) (h : decodeFamily0 w = some i) :
    encode i = w := by
  unfold decodeFamily0 at h
  split at h
  case h_3 => cases h
  all_goals
    next hnnn =>
      cases h
      exact encodeF0_nnnField hop hnnn

theorem encode_of_decodeFamily8 {w : Word} {i : Instr} (hop : opField w = 0x8) (h : decodeFamily8 w = some i) :
    encode i = w := by
  unfold decodeFamily8 at h
  split at h
  case h_10 => cases h
  all_goals
    next hn =>
      cases h
      exact encodeFR_nField hop hn

theorem encode_of_decodeFamilyE {w : Word} {i : Instr} (hop : opField w = 0xE) (h : decodeFamilyE w = some i) :
    encode i = w := by
  unfold decodeFamilyE at h
  split at h
  case h_3 => cases h
  all_goals
    next hnn =>
      cases h
      exact encodeFI_nnField hop hnn

theorem encode_of_decodeFamilyF {w : Word} {i : Instr} (hop : opField w = 0xF) (h : decodeFamilyF w = some i) :
    encode i = w := by
  unfold decodeFamilyF at h
  split at h
  case h_10 => cases h
  all_goals
    next hnn =>
      cases h
      exact encodeFI_nnField hop hnn

/-- A family with one pattern `kXY0` (R77: `5XY0`, `9XY0`). -/
theorem encode_of_decode_zeroNibble {w : Word} {i : Instr} {c : Reg → Reg → Instr} {op : Nat} (hop : opField w = op)
    (henc : ∀ x y, encode (c x y) = encodeFR op x y 0)
    (h : (if (nField w).val = 0 then some (c (xField w) (yField w)) else none) = some i) : encode i = w := by
  split_ifs at h with hn
  cases h
  exact (henc _ _).trans (encodeFR_nField hop hn)

theorem encode_of_decodeOpcode {w : Word} {i : Instr} (h : decodeOpcode w = some i) : encode i = w := by
  unfold decodeOpcode at h
  split at h
  next hop => exact encode_of_decodeFamily0 hop h
  next hop => cases h; exact encodeFA_nnnField hop
  next hop => cases h; exact encodeFA_nnnField hop
  next hop => cases h; exact encodeFI_nnField hop rfl
  next hop => cases h; exact encodeFI_nnField hop rfl
  next hop => exact encode_of_decode_zeroNibble hop (fun _ _ => rfl) h
  next hop => cases h; exact encodeFI_nnField hop rfl
  next hop => cases h; exact encodeFI_nnField hop rfl
  next hop => exact encode_of_decodeFamily8 hop h
  next hop => exact encode_of_decode_zeroNibble hop (fun _ _ => rfl) h
  next hop => cases h; exact encodeFA_nnnField hop
  next hop => cases h; exact encodeFA_nnnField hop
  next hop => cases h; exact encodeFI_nnField hop rfl
  next hop => cases h; exact encodeFR_nField hop rfl
  next hop => exact encode_of_decodeFamilyE hop h
  next hop => exact encode_of_decodeFamilyF hop h
  next => cases h

/-- Settles O7: each branch of the decoder fixes the fields that are no operands, and a word is its fields put together. -/
theorem encodeOfDecodeIsTheWord : Obligations.EncodeOfDecodeIsTheWord := fun _ _ h =>
  encode_of_decodeOpcode (decodeWord_eq_ok.mp h)

end Sys2Proof.Machine
end

section
/-! PROOFS. The decoder against the opcode table (R72, R77, R78): the words each row stands for, and the words that decode to
nothing. -/

namespace Sys2Proof.Machine

/-! ### The words that match a row -/

theorem opField_of_masked {w : Word} {op : Nat} (hop : op < 0x10) (h : w &&& 0xF000 = BitVec.ofNat 16 (op * 0x1000)) :
    opField w = op := by
  have hmask := (and_mask_op w).symm.trans (congrArg BitVec.toNat h)
  rw [BitVec.toNat_ofNat] at hmask
  omega

theorem fields_of_masked_n {w : Word} {op low : Nat} (hop : op < 0x10) (hlow : low < 0x10)
    (h : w &&& 0xF00F = BitVec.ofNat 16 (op * 0x1000 + low)) : opField w = op ∧ (nField w).val = low := by
  have hmask := (and_mask_op_n w).symm.trans (congrArg BitVec.toNat h)
  have := (nField w).isLt
  rw [BitVec.toNat_ofNat] at hmask
  omega

theorem fields_of_masked_nn {w : Word} {op low : Nat} (hop : op < 0x10) (hlow : low < 0x100)
    (h : w &&& 0xF0FF = BitVec.ofNat 16 (op * 0x1000 + low)) : opField w = op ∧ (nnField w).toNat = low := by
  have hmask := (and_mask_op_nn w).symm.trans (congrArg BitVec.toNat h)
  have := (nnField w).isLt
  rw [BitVec.toNat_ofNat] at hmask
  omega

/-- Every word that matches the row is the word of an instruction with the row's mnemonic. -/
def rowCovered (r : OpcodeRow) : Prop :=
  ∀ w : Word, w &&& r.mask = r.pattern → ∃ i : Instr, mnemonicOf i = r.mnemonic ∧ encode i = w

theorem rowCovered_F0 {i : Instr} {m : String} {p : Word} (hm : mnemonicOf i = m) (henc : encode i = p) :
    rowCovered ⟨m, 0xFFFF, p⟩ := fun w h =>
  ⟨i, hm, henc.trans (h.symm.trans (BitVec.and_allOnes (x := w)))⟩

theorem rowCovered_FA {c : Addr → Instr} {m : String} (op : Nat) (hop : op < 0x10) (hm : ∀ nnn, mnemonicOf (c nnn) = m)
    (henc : ∀ nnn, encode (c nnn) = encodeFA op nnn) : rowCovered ⟨m, 0xF000, BitVec.ofNat 16 (op * 0x1000)⟩ :=
  fun _ h => ⟨_, hm _, (henc _).trans (encodeFA_nnnField (opField_of_masked hop h))⟩

theorem rowCovered_FI {c : Reg → Byte → Instr} {m : String} (op : Nat) (hop : op < 0x10)
    (hm : ∀ x nn, mnemonicOf (c x nn) = m) (henc : ∀ x nn, encode (c x nn) = encodeFI op x nn.toNat) :
    rowCovered ⟨m, 0xF000, BitVec.ofNat 16 (op * 0x1000)⟩ :=
  fun _ h => ⟨_, hm _ _, (henc _ _).trans (encodeFI_nnField (opField_of_masked hop h) rfl)⟩

theorem rowCovered_FD {c : Reg → Reg → Rows → Instr} {m : String} (op : Nat) (hop : op < 0x10)
    (hm : ∀ x y n, mnemonicOf (c x y n) = m) (henc : ∀ x y n, encode (c x y n) = encodeFR op x y n.val) :
    rowCovered ⟨m, 0xF000, BitVec.ofNat 16 (op * 0x1000)⟩ :=
  fun _ h => ⟨_, hm _ _ _, (henc _ _ _).trans (encodeFR_nField (opField_of_masked hop h) rfl)⟩

theorem rowCovered_FR {c : Reg → Reg → Instr} {m : String} (op low : Nat) (hop : op < 0x10) (hlow : low < 0x10)
    (hm : ∀ x y, mnemonicOf (c x y) = m) (henc : ∀ x y, encode (c x y) = encodeFR op x y low) :
    rowCovered ⟨m, 0xF00F, BitVec.ofNat 16 (op * 0x1000 + low)⟩ := fun _ h =>
  have hfields := fields_of_masked_n hop hlow h
  ⟨_, hm _ _, (henc _ _).trans (encodeFR_nField hfields.1 hfields.2)⟩

theorem rowCovered_FX {c : Reg → Instr} {m : String} (op low : Nat) (hop : op < 0x10) (hlow : low < 0x100)
    (hm : ∀ x, mnemonicOf (c x) = m) (henc : ∀ x, encode (c x) = encodeFI op x low) :
    rowCovered ⟨m, 0xF0FF, BitVec.ofNat 16 (op * 0x1000 + low)⟩ := fun _ h =>
  have hfields := fields_of_masked_nn hop hlow h
  ⟨_, hm _, (henc _).trans (encodeFI_nnField hfields.1 hfields.2)⟩

theorem opcodeTable_covered : ∀ r ∈ opcodeTable, rowCovered r := by
  simp only [opcodeTable, List.cons_append, List.nil_append, List.forall_mem_cons]
  exact ⟨rowCovered_F0 (i := .cls) rfl (by decide), rowCovered_F0 (i := .ret) rfl (by decide),
    rowCovered_FA 0x1 (by decide) (c := .jp) (fun _ => rfl) fun _ => rfl,
    rowCovered_FA 0x2 (by decide) (c := .call) (fun _ => rfl) fun _ => rfl,
    rowCovered_FI 0x3 (by decide) (c := .seImm) (fun _ _ => rfl) fun _ _ => rfl,
    rowCovered_FI 0x4 (by decide) (c := .sneImm) (fun _ _ => rfl) fun _ _ => rfl,
    rowCovered_FR 0x5 0x0 (by decide) (by decide) (c := .seReg) (fun _ _ => rfl) fun _ _ => rfl,
    rowCovered_FI 0x6 (by decide) (c := .ldImm) (fun _ _ => rfl) fun _ _ => rfl,
    rowCovered_FI 0x7 (by decide) (c := .addImm) (fun _ _ => rfl) fun _ _ => rfl,
    rowCovered_FR 0x8 0x0 (by decide) (by decide) (c := .ldReg) (fun _ _ => rfl) fun _ _ => rfl,
    rowCovered_FR 0x8 0x1 (by decide) (by decide) (c := .or) (fun _ _ => rfl) fun _ _ => rfl,
    rowCovered_FR 0x8 0x2 (by decide) (by decide) (c := .and) (fun _ _ => rfl) fun _ _ => rfl,
    rowCovered_FR 0x8 0x3 (by decide) (by decide) (c := .xor) (fun _ _ => rfl) fun _ _ => rfl,
    rowCovered_FR 0x8 0x4 (by decide) (by decide) (c := .addReg) (fun _ _ => rfl) fun _ _ => rfl,
    rowCovered_FR 0x8 0x5 (by decide) (by decide) (c := .sub) (fun _ _ => rfl) fun _ _ => rfl,
    rowCovered_FR 0x8 0x6 (by decide) (by decide) (c := .shr) (fun _ _ => rfl) fun _ _ => rfl,
    rowCovered_FR 0x8 0x7 (by decide) (by decide) (c := .subn) (fun _ _ => rfl) fun _ _ => rfl,
    rowCovered_FR 0x8 0xE (by decide) (by decide) (c := .shl) (fun _ _ => rfl) fun _ _ => rfl,
    rowCovered_FR 0x9 0x0 (by decide) (by decide) (c := .sneReg) (fun _ _ => rfl) fun _ _ => rfl,
    rowCovered_FA 0xA (by decide) (c := .ldI) (fun _ => rfl) fun _ => rfl,
    rowCovered_FA 0xB (by decide) (c := .jpV0) (fun _ => rfl) fun _ => rfl,
    rowCovered_FI 0xC (by decide) (c := .rnd) (fun _ _ => rfl) fun _ _ => rfl,
    rowCovered_FD 0xD (by decide) (c := .drw) (fun _ _ _ => rfl) fun _ _ _ => rfl,
    rowCovered_FX 0xE 0x9E (by decide) (by decide) (c := .skp) (fun _ => rfl) fun _ => rfl,
    rowCovered_FX 0xE 0xA1 (by decide) (by decide) (c := .sknp) (fun _ => rfl) fun _ => rfl,
    rowCovered_FX 0xF 0x07 (by decide) (by decide) (c := .ldVDt) (fun _ => rfl) fun _ => rfl,
    rowCovered_FX 0xF 0x0A (by decide) (by decide) (c := .ldVK) (fun _ => rfl) fun _ => rfl,
    rowCovered_FX 0xF 0x15 (by decide) (by decide) (c := .ldDt) (fun _ => rfl) fun _ => rfl,
    rowCovered_FX 0xF 0x18 (by decide) (by decide) (c := .ldSt) (fun _ => rfl) fun _ => rfl,
    rowCovered_FX 0xF 0x1E (by decide) (by decide) (c := .addI) (fun _ => rfl) fun _ => rfl,
    rowCovered_FX 0xF 0x29 (by decide) (by decide) (c := .ldF) (fun _ => rfl) fun _ => rfl,
    rowCovered_FX 0xF 0x33 (by decide) (by decide) (c := .ldB) (fun _ => rfl) fun _ => rfl,
    rowCovered_FX 0xF 0x55 (by decide) (by decide) (c := .ldMemV) (fun _ => rfl) fun _ => rfl,
    rowCovered_FX 0xF 0x65 (by decide) (by decide) (c := .ldVMem) (fun _ => rfl) fun _ => rfl,
    fun _ h => absurd h List.not_mem_nil⟩

theorem matchesRow (i : Instr) : Laws.MatchesRow.Statement i := by
  cases i with
  | cls => exact Laws.MatchesRow.cls
  | ret => exact Laws.MatchesRow.ret
  | jp nnn => exact Laws.MatchesRow.jp nnn
  | call nnn => exact Laws.MatchesRow.call nnn
  | seImm x nn => exact Laws.MatchesRow.seImm x nn
  | sneImm x nn => exact Laws.MatchesRow.sneImm x nn
  | seReg x y => exact Laws.MatchesRow.seReg x y
  | ldImm x nn => exact Laws.MatchesRow.ldImm x nn
  | addImm x nn => exact Laws.MatchesRow.addImm x nn
  | ldReg x y => exact Laws.MatchesRow.ldReg x y
  | or x y => exact Laws.MatchesRow.or x y
  | and x y => exact Laws.MatchesRow.and x y
  | xor x y => exact Laws.MatchesRow.xor x y
  | addReg x y => exact Laws.MatchesRow.addReg x y
  | sub x y => exact Laws.MatchesRow.sub x y
  | shr x y => exact Laws.MatchesRow.shr x y
  | subn x y => exact Laws.MatchesRow.subn x y
  | shl x y => exact Laws.MatchesRow.shl x y
  | sneReg x y => exact Laws.MatchesRow.sneReg x y
  | ldI nnn => exact Laws.MatchesRow.ldI nnn
  | jpV0 nnn => exact Laws.MatchesRow.jpV0 nnn
  | rnd x nn => exact Laws.MatchesRow.rnd x nn
  | drw x y n => exact Laws.MatchesRow.drw x y n
  | skp x => exact Laws.MatchesRow.skp x
  | sknp x => exact Laws.MatchesRow.sknp x
  | ldVDt x => exact Laws.MatchesRow.ldVDt x
  | ldVK x => exact Laws.MatchesRow.ldVK x
  | ldDt x => exact Laws.MatchesRow.ldDt x
  | ldSt x => exact Laws.MatchesRow.ldSt x
  | addI x => exact Laws.MatchesRow.addI x
  | ldF x => exact Laws.MatchesRow.ldF x
  | ldB x => exact Laws.MatchesRow.ldB x
  | ldMemV x => exact Laws.MatchesRow.ldMemV x
  | ldVMem x => exact Laws.MatchesRow.ldVMem x

/-- No two rows have one mnemonic. -/
theorem opcodeTable_mnemonics_nodup : (opcodeTable.map OpcodeRow.mnemonic).Nodup := by decide

/-- A row stands for the words that decode to an instruction with its mnemonic. -/
theorem rowMatches_iff_decodes {r : OpcodeRow} (hr : r ∈ opcodeTable) (w : Word) :
    rowMatches r w = true ↔ ∃ i : Instr, decodeWord w = .ok i ∧ r.mnemonic = mnemonicOf i := by
  constructor
  · intro h
    obtain ⟨i, hm, rfl⟩ := opcodeTable_covered r hr w (beq_iff_eq.mp h)
    exact ⟨i, decodeWord_encode i, hm.symm⟩
  · rintro ⟨i, hi, hm⟩
    obtain ⟨r', hr', hm', hmatch⟩ := matchesRow i
    obtain rfl : r' = r := List.inj_on_of_nodup_map opcodeTable_mnemonics_nodup hr' hr (hm'.trans hm.symm)
    rwa [encodeOfDecodeIsTheWord w i hi] at hmatch

/-- Settles O8: a row matches a word exactly when the word decodes to an instruction with the row's mnemonic, and a word decodes
to at most one instruction. -/
theorem decoderFollowsTheOpcodeTable : Obligations.DecoderFollowsTheOpcodeTable := by
  refine fun w => ⟨fun i hi r hr => ?decodes, fun e he => ⟨(decodeWord_eq_error.mp he).2, fun r hr => ?unknown⟩⟩
  case decodes =>
    rw [rowMatches_iff_decodes hr, hi]
    simp
  case unknown =>
    rw [Bool.eq_false_iff, Ne, rowMatches_iff_decodes hr, he]
    simp

/-! ### The words that decode to nothing (R78) -/

theorem decodeFamily0_eq_none {w : Word} :
    decodeFamily0 w = none ↔ (nnnField w).toNat ≠ 0x0E0 ∧ (nnnField w).toNat ≠ 0x0EE := by
  unfold decodeFamily0
  split <;> simp_all

theorem decodeFamily8_eq_none {w : Word} :
    decodeFamily8 w = none ↔ (nField w).val ∈ [0x8, 0x9, 0xA, 0xB, 0xC, 0xD, 0xF] := by
  have := (nField w).isLt
  unfold decodeFamily8
  split
  case h_10 =>
    simp only [List.mem_cons, List.not_mem_nil, or_false, true_iff, imp_false] at *
    omega
  all_goals simp_all

theorem decodeFamilyE_eq_none {w : Word} : decodeFamilyE w = none ↔ (nnField w).toNat ∉ [0x9E, 0xA1] := by
  unfold decodeFamilyE
  split <;> simp_all

theorem decodeFamilyF_eq_none {w : Word} :
    decodeFamilyF w = none ↔ (nnField w).toNat ∉ [0x07, 0x0A, 0x15, 0x18, 0x1E, 0x29, 0x33, 0x55, 0x65] := by
  unfold decodeFamilyF
  split <;> simp_all

/-- The unknown words by their fields. -/
theorem decodeOpcode_eq_none {w : Word} :
    decodeOpcode w = none ↔
      (opField w = 0x0 ∧ decodeFamily0 w = none) ∨ (opField w = 0x5 ∧ (nField w).val ≠ 0) ∨
      (opField w = 0x8 ∧ decodeFamily8 w = none) ∨ (opField w = 0x9 ∧ (nField w).val ≠ 0) ∨
      (opField w = 0xE ∧ decodeFamilyE w = none) ∨ (opField w = 0xF ∧ decodeFamilyF w = none) := by
  obtain ⟨-, -, -, hop⟩ := word_nibbles w
  unfold decodeOpcode
  split
  case h_17 =>
    exfalso
    simp only [imp_false] at *
    omega
  all_goals simp [*]

/-- Settles O9: the decoder answers nothing exactly in the six families of R78, each condition on a field is one on the word as a
number, and in family 0 the low 12 bits are the whole word. -/
theorem unknownOpcodesAreTheListedWords : Obligations.UnknownOpcodesAreTheListedWords := by
  intro w
  have hfamily0 : opField w = 0 ∧ decodeFamily0 w = none ↔
      w.toNat / 0x1000 = 0 ∧ w.toNat ≠ 0x00E0 ∧ w.toNat ≠ 0x00EE := by
    rw [decodeFamily0_eq_none, opField_eq, nnnField_toNat]
    omega
  rw [decodeWord_eq_error, and_iff_left rfl, decodeOpcode_eq_none, hfamily0, decodeFamily8_eq_none, decodeFamilyE_eq_none,
    decodeFamilyF_eq_none, opField_eq, nField_val, nnField_toNat]

/-- Settles O10: nine evaluations of the decoder. -/
theorem sampleWordsDecode : Obligations.SampleWordsDecode := by
  refine ⟨?_, ?_, ?_, ?_, ?_, ?_, ?_, ?_, ?_⟩ <;> decide

end Sys2Proof.Machine
end

section
/-! PROOFS. What each instruction answers (R93): an equation or an equivalence per instruction that no section above gives, and
with them every way an instruction answers a next state, by the shape of its rule. -/

namespace Sys2Proof.Machine

/-! ### Instructions that always answer -/

theorem exec_or (x y : Reg) (s : State) : exec (.or x y) s = .next (s.setResult x (s.reg x ||| s.reg y)) := rfl

theorem exec_and (x y : Reg) (s : State) : exec (.and x y) s = .next (s.setResult x (s.reg x &&& s.reg y)) := rfl

theorem exec_xor (x y : Reg) (s : State) : exec (.xor x y) s = .next (s.setResult x (s.reg x ^^^ s.reg y)) := rfl

theorem exec_addReg (x y : Reg) (s : State) :
    exec (.addReg x y) s = .next (s.setResultFlag x (s.reg x + s.reg y) (carryOut (s.reg x) (s.reg y))) := rfl

theorem exec_sub (x y : Reg) (s : State) :
    exec (.sub x y) s = .next (s.setResultFlag x (s.reg x - s.reg y) (noBorrow (s.reg x) (s.reg y))) := rfl

theorem exec_subn (x y : Reg) (s : State) :
    exec (.subn x y) s = .next (s.setResultFlag x (s.reg y - s.reg x) (noBorrow (s.reg y) (s.reg x))) := rfl

theorem exec_shr (x y : Reg) (s : State) :
    exec (.shr x y) s = .next (s.setResultFlag x (s.reg x >>> 1) (bitOutRight (s.reg x))) := rfl

theorem exec_shl (x y : Reg) (s : State) :
    exec (.shl x y) s = .next (s.setResultFlag x (s.reg x <<< 1) (bitOutLeft (s.reg x))) := rfl

/-- A state from which a draw of a free value has been taken (R9; log 2, log 3). -/
def State.takeDraw (s : State) : State := { s with draws := s.draws + 1 }

theorem exec_rnd (x : Reg) (nn : Byte) (s : State) :
    exec (.rnd x nn) s = .next (s.takeDraw.setResult x (Config.rand s.draws &&& nn)) := rfl

theorem exec_ldVDt (x : Reg) (s : State) : exec (.ldVDt x) s = .next (s.setResult x s.dt) := rfl

/-- A state with an address in I. -/
def State.setIndex (s : State) (a : Word) : State := { s with i := a }

/-- The sum that `FX1E` writes to I (R171, D3). -/
def State.indexSum (s : State) (x : Reg) : Word := BitVec.ofNat 16 ((s.i.toNat + (s.reg x).toNat) % 0x1000)

theorem exec_addI (x : Reg) (s : State) :
    exec (.addI x) s =
      .next (((s.setIndex (s.indexSum x)).setFlag (indexOverflow s.i (s.reg x))).advance) := rfl

/-! ### Instructions on the key state -/

theorem exec_ldVK_of_no_key {s : State} (x : Reg) (h : ∀ k, s.pressed k = false) : exec (.ldVK x) s = .next s := by
  simp [exec, execLdVK, State.pressedKeys_eq_nil.mpr h, chooseKey]

theorem exec_ldVK_of_chosen {s : State} {k : Fin 16} (x : Reg)
    (h : chooseKey (Config.keyChoice s.draws) s.pressedKeys = some k) :
    exec (.ldVK x) s = .next (s.takeDraw.setResult x (BitVec.ofNat 8 k.val)) := by
  simp only [exec, execLdVK, h]
  rfl

/-- `FX0A` waits, or stores a pressed key (R191). -/
theorem exec_ldVK_cases (x : Reg) (s : State) :
    (∀ k, s.pressed k = false) ∧ exec (.ldVK x) s = .next s ∨
    ∃ k, chooseKey (Config.keyChoice s.draws) s.pressedKeys = some k ∧ s.pressed k = true ∧
      exec (.ldVK x) s = .next (s.takeDraw.setResult x (BitVec.ofNat 8 k.val)) := by
  cases hk : chooseKey (Config.keyChoice s.draws) s.pressedKeys with
  | none =>
    have hnone := State.pressedKeys_eq_nil.mp (chooseKey_eq_none.mp hk)
    exact .inl ⟨hnone, exec_ldVK_of_no_key x hnone⟩
  | some k => exact .inr ⟨k, rfl, State.mem_pressedKeys.mp (chooseKey_mem hk), exec_ldVK_of_chosen x hk⟩

theorem exec_skp_of_key {s : State} {x : Reg} {k : Fin 16} (h : keyIndex (s.reg x) = some k) :
    exec (.skp x) s = .next (s.skipIf (s.pressed k)) := by
  simp only [exec, execSkp, h]

theorem exec_sknp_of_key {s : State} {x : Reg} {k : Fin 16} (h : keyIndex (s.reg x) = some k) :
    exec (.sknp x) s = .next (s.skipIf (!s.pressed k)) := by
  simp only [exec, execSknp, h]

theorem exec_skp_of_no_key {s : State} {x : Reg} (h : keyIndex (s.reg x) = none) :
    exec (.skp x) s = .fault (.invalidKeyIndex (s.reg x)) := by
  simp only [exec, execSkp, h, raise]

theorem exec_sknp_of_no_key {s : State} {x : Reg} (h : keyIndex (s.reg x) = none) :
    exec (.sknp x) s = .fault (.invalidKeyIndex (s.reg x)) := by
  simp only [exec, execSknp, h, raise]

/-! ### Instructions on the call stack -/

/-- The state that `2NNN` answers with a free slot: the return address is in the slot SP named (R123, D24). -/
def State.called (s : State) (nnn : Addr) (h : s.sp.val < 16) : State :=
  { s with stack := s.stack.set s.sp.val (s.pc + 2), sp := ⟨s.sp.val + 1, by omega⟩ }.jump (addrOperand nnn)

theorem exec_call_of_lt {s : State} (nnn : Addr) (h : s.sp.val < 16) :
    exec (.call nnn) s = .next (s.called nnn h) := by
  simp [exec, execCall, State.push, h, State.called]

theorem exec_call_of_full {s : State} (nnn : Addr) (h : s.sp.val = 16) :
    exec (.call nnn) s = .fault (.stackOverflow s.pc) := by
  simp only [exec, execCall, State.push_eq_none.mpr h, raise]

/-- The state that `00EE` answers with an occupied slot: every slot keeps its word (R120, D24). -/
def State.returned (s : State) (h : 0 < s.sp.val) : State :=
  { s with sp := ⟨s.sp.val - 1, by omega⟩ }.jump s.stack[s.sp.val - 1]

theorem exec_ret_of_pos {s : State} (h : 0 < s.sp.val) : exec .ret s = .next (s.returned h) := by
  simp [exec, execRet, State.pop, h.ne', State.returned]

theorem exec_ret_of_empty {s : State} (h : s.sp.val = 0) : exec .ret s = .fault (.stackUnderflow s.pc) := by
  simp only [exec, execRet, State.pop_eq_none.mpr h, raise]

/-! ### Instructions that access memory -/

/-- The outcome of a rule that checks its access first and then answers `t` (R57). -/
def guardAccess (base count : Nat) (t : State) : Outcome :=
  match accessFault base count with
  | some e => .fault e
  | none => .next t

theorem guardAccess_eq_next {base count : Nat} {t u : State} :
    guardAccess base count t = .next u ↔ (count = 0 ∨ base + count ≤ 0x1000) ∧ t = u := by
  rw [← accessFault_eq_none]
  unfold guardAccess
  split <;> simp [*]

theorem guardAccess_eq_fault {base count : Nat} {t : State} {e : Fault} :
    guardAccess base count t = .fault e ↔
      1 ≤ count ∧ 0x1000 < base + count ∧ e = .memoryOutOfBounds (max base 0x1000) := by
  rw [← accessFault_eq_some]
  unfold guardAccess
  split <;> simp [*]

theorem guardAccess_ne_refused (base count : Nat) (t : State) (r : Refusal) : guardAccess base count t ≠ .refused r := by
  unfold guardAccess
  split <;> simp

/-- The pixels and the collision of the sprite that `DXYN` draws (R112). -/
def State.spriteBlit (s : State) (x y : Reg) (n : Rows) : Blit :=
  blitSprite (s.reg x).toNat (s.reg y).toNat (s.bytesAt s.dataBase n.val) s.fb

/-- The state that `DXYN` answers when its rows are in memory (R112). -/
def State.drawn (s : State) (x y : Reg) (n : Rows) : State :=
  ({ s with fb := (s.spriteBlit x y n).fb, draw := true }.setFlag (s.spriteBlit x y n).collision).advance

theorem exec_drw (x y : Reg) (n : Rows) (s : State) :
    exec (.drw x y n) s = guardAccess s.dataBase n.val (s.drawn x y n) := rfl

theorem exec_ldB (x : Reg) (s : State) :
    exec (.ldB x) s = guardAccess s.dataBase 3 (s.storeBytes s.dataBase (bcdDigits (s.reg x))).advance := rfl

theorem exec_ldMemV (x : Reg) (s : State) :
    exec (.ldMemV x) s = guardAccess s.dataBase (x.val + 1) (s.storeBytes s.dataBase (s.regsUpTo x)).advance := rfl

theorem exec_ldVMem (x : Reg) (s : State) :
    exec (.ldVMem x) s = guardAccess s.dataBase (x.val + 1) (s.loadRegs s.dataBase x).advance := rfl

/-! ### Every way an instruction answers a next state -/

/-- The next state of an instruction by the shape of its rule: what it writes, and which instructions have that shape where a
claim needs to know. -/
inductive Effect (i : Instr) (s : State) : State → Prop
  | waited (hi : ∃ x, i = .ldVK x) (hkeys : ∀ k, s.pressed k = false) : Effect i s s
  | skipped (taken : Bool) : Effect i s (s.skipIf taken)
  | result (x : Reg) (w : Byte) (hx : x ∈ writesOf i) : Effect i s (s.setResult x w)
  | resultFlag (x : Reg) (w : Byte) (f : Bool) (hx : x ∈ writesOf i) (hvf : regVF ∈ writesOf i) :
      Effect i s (s.setResultFlag x w f)
  | drew (x : Reg) (w : Byte) (hx : x ∈ writesOf i) (hi : (∃ x nn, i = .rnd x nn) ∨ ∃ x, i = .ldVK x) :
      Effect i s (s.takeDraw.setResult x w)
  | jumped (target : Word) (htarget : target.toNat ≤ 0x10FE) (hi : ∃ nnn, i = .jp nnn ∨ i = .jpV0 nnn) :
      Effect i s (s.jump target)
  | called (nnn : Addr) (h : s.sp.val < 16) (hi : i = .call nnn) : Effect i s (s.called nnn h)
  | returned (h : 0 < s.sp.val) (hi : i = .ret) : Effect i s (s.returned h)
  | cleared (hi : i = .cls) : Effect i s { s with fb := clearFramebuffer, draw := true }.advance
  | drawn (x y : Reg) (n : Rows) (hi : i = .drw x y n) : Effect i s (s.drawn x y n)
  | index (a : Word) (ha : a.toNat ≤ 0xFFF) (hi : (∃ nnn, i = .ldI nnn) ∨ ∃ x, i = .ldF x) :
      Effect i s (s.setIndex a).advance
  | indexFlag (a : Word) (f : Bool) (ha : a.toNat ≤ 0xFFF) (hi : ∃ x, i = .addI x) :
      Effect i s ((s.setIndex a).setFlag f).advance
  | delayTimer (w : Byte) (hi : ∃ x, i = .ldDt x) : Effect i s { s with dt := w }.advance
  | soundTimer (w : Byte) (hi : ∃ x, i = .ldSt x) : Effect i s { s with st := w }.advance
  | stored (ws : List Byte) (hi : ∃ x, i = .ldB x ∨ i = .ldMemV x) : Effect i s (s.storeBytes s.dataBase ws).advance
  | loaded (x : Reg) (hi : i = .ldVMem x) : Effect i s (s.loadRegs s.dataBase x).advance

theorem State.toNat_indexSum (s : State) (x : Reg) : (s.indexSum x).toNat = (s.i.toNat + (s.reg x).toNat) % 0x1000 := by
  rw [State.indexSum, BitVec.toNat_ofNat]
  omega

theorem effect_of_exec {i : Instr} {s t : State} (h : exec i s = .next t) : Effect i s t := by
  cases i with
  | cls => cases h; exact .cleared rfl
  | ret =>
    rcases Nat.eq_zero_or_pos s.sp.val with hsp | hsp
    · cases (exec_ret_of_empty hsp).symm.trans h
    · cases (exec_ret_of_pos hsp).symm.trans h
      exact .returned hsp rfl
  | jp nnn =>
    cases h
    have := nnn.isLt
    exact .jumped _ (by rw [toNat_addrOperand]; omega) ⟨nnn, .inl rfl⟩
  | call nnn =>
    rcases Nat.lt_or_ge s.sp.val 16 with hsp | hsp
    · cases (exec_call_of_lt nnn hsp).symm.trans h
      exact .called nnn hsp rfl
    · cases (exec_call_of_full nnn (by omega)).symm.trans h
  | seImm x nn | sneImm x nn => cases h; exact .skipped _
  | seReg x y | sneReg x y => cases h; exact .skipped _
  | ldImm x nn | addImm x nn => cases h; exact .result x _ (by simp [writesOf])
  | ldReg x y | or x y | and x y | xor x y => cases h; exact .result x _ (by simp [writesOf])
  | addReg x y | sub x y | shr x y | subn x y | shl x y =>
    cases h; exact .resultFlag x _ _ (by simp [writesOf]) (by simp [writesOf])
  | ldI nnn =>
    cases h
    have := nnn.isLt
    exact .index _ (by rw [toNat_addrOperand]; omega) (.inl ⟨nnn, rfl⟩)
  | jpV0 nnn =>
    cases h
    have := nnn.isLt
    have := (s.reg 0).isLt
    exact .jumped _ (by rw [State.toNat_indexedTarget]; omega) ⟨nnn, .inr rfl⟩
  | rnd x nn => cases h; exact .drew x _ (by simp [writesOf]) (.inl ⟨x, nn, rfl⟩)
  | drw x y n =>
    obtain ⟨-, rfl⟩ := guardAccess_eq_next.mp ((exec_drw x y n s).symm.trans h)
    exact .drawn x y n rfl
  | skp x =>
    cases hk : keyIndex (s.reg x) with
    | none => cases (exec_skp_of_no_key hk).symm.trans h
    | some k => cases (exec_skp_of_key hk).symm.trans h; exact .skipped _
  | sknp x =>
    cases hk : keyIndex (s.reg x) with
    | none => cases (exec_sknp_of_no_key hk).symm.trans h
    | some k => cases (exec_sknp_of_key hk).symm.trans h; exact .skipped _
  | ldVDt x => cases h; exact .result x _ (by simp [writesOf])
  | ldVK x =>
    rcases exec_ldVK_cases x s with ⟨hkeys, hexec⟩ | ⟨k, -, -, hexec⟩
    · cases hexec.symm.trans h; exact .waited ⟨x, rfl⟩ hkeys
    · cases hexec.symm.trans h; exact .drew x _ (by simp [writesOf]) (.inr ⟨x, rfl⟩)
  | ldDt x => cases h; exact .delayTimer _ ⟨x, rfl⟩
  | ldSt x => cases h; exact .soundTimer _ ⟨x, rfl⟩
  | addI x =>
    cases (exec_addI x s).symm.trans h
    exact .indexFlag _ _ (by rw [State.toNat_indexSum]; omega) ⟨x, rfl⟩
  | ldF x =>
    cases h
    have := (s.reg x).isLt
    exact .index _ (by rw [toNat_glyphAddress]; omega) (.inr ⟨x, rfl⟩)
  | ldB x =>
    obtain ⟨-, rfl⟩ := guardAccess_eq_next.mp ((exec_ldB x s).symm.trans h)
    exact .stored _ ⟨x, .inl rfl⟩
  | ldMemV x =>
    obtain ⟨-, rfl⟩ := guardAccess_eq_next.mp ((exec_ldMemV x s).symm.trans h)
    exact .stored _ ⟨x, .inr rfl⟩
  | ldVMem x =>
    obtain ⟨-, rfl⟩ := guardAccess_eq_next.mp ((exec_ldVMem x s).symm.trans h)
    exact .loaded x rfl

end Sys2Proof.Machine
end

section
/-! PROOFS. What every instruction and every step keeps: the registers outside the write column (R24), each part of the state
outside its writers, and the invariant (R28, R29, R123). -/

namespace Sys2Proof.Machine

/-- Settles O51: of the shapes, those that write a register name it in the write column, and no other touches one. -/
theorem registersOutsideTheWriteColumnStay : Obligations.RegistersOutsideTheWriteColumnStay := by
  intro i s t h r hr
  have hne {x : Reg} (hx : x ∈ writesOf i) : r ≠ x := fun hrx => hr (hrx ▸ hx)
  cases effect_of_exec h with
  | waited => rfl
  | skipped taken => exact s.reg_skipIf taken r
  | result x w hx => rw [State.reg_setResult, if_neg (hne hx)]
  | resultFlag x w f hx hvf => rw [State.reg_setResultFlag, if_neg (hne hvf), if_neg (hne hx)]
  | drew x w hx => exact (State.reg_setResult _ x r w).trans (if_neg (hne hx))
  | drawn x y n hi =>
    have hvf : r ≠ regVF := hne (by simp [hi, writesOf])
    exact (State.reg_setFlag _ _ r).trans (if_neg hvf)
  | indexFlag a f _ hi =>
    obtain ⟨x, rfl⟩ := hi
    have hvf : r ≠ regVF := hne (by simp [writesOf])
    exact (State.reg_setFlag _ _ r).trans (if_neg hvf)
  | loaded x hi =>
    have hrx : ¬ r ≤ x := fun hle => hr (by simp [hi, writesOf, regsThrough, hle])
    rw [State.reg_advance, State.reg_loadRegs, if_neg hrx]
  | stored ws => exact s.reg_storeBytes s.dataBase ws r
  | jumped | called | returned | cleared | index | delayTimer | soundTimer => rfl

/-- Settles O53: each shape changes only the parts it names, and names the instructions that have it. -/
theorem eachPartOfTheStateHasItsWriters : Obligations.EachPartOfTheStateHasItsWriters := by
  intro i s t h
  cases effect_of_exec h with
  | waited | skipped | result | resultFlag | jumped | loaded => simp
  | drew x w hx hi => simp [State.takeDraw, hi]
  | called nnn hsp hi => simp [State.called, hi]
  | returned hsp hi => simp [State.returned, hi]
  | cleared hi => simp [hi]
  | drawn x y n hi => simp [State.drawn, hi]
  | index a ha hi => rcases hi with ⟨nnn, rfl⟩ | ⟨x, rfl⟩ <;> simp [State.setIndex]
  | indexFlag a f ha hi =>
    obtain ⟨x, rfl⟩ := hi
    simp [State.setIndex]
  | delayTimer w hi => simp [hi]
  | soundTimer w hi => simp [hi]
  | stored ws hi => simp [hi]

/-! ### PC -/

/-- An instruction that transfers control: its next PC is not relative to its own (R25). -/
def transfersControl (i : Instr) : Prop := i = .ret ∨ ∃ nnn : Addr, i = .jp nnn ∨ i = .call nnn ∨ i = .jpV0 nnn

/-- An instruction that neither waits nor transfers control moves PC by two or by four (R26, R136). -/
theorem Effect.pc {i : Instr} {s t : State} (h : Effect i s t) :
    waits i s = true ∨ transfersControl i ∨ t.pc = s.pc + 2 ∨ t.pc = s.pc + 4 := by
  cases h with
  | waited hi hkeys => exact .inl (waits_eq_true.mpr ⟨hi, hkeys⟩)
  | skipped taken => cases taken <;> simp
  | jumped target htarget hi =>
    obtain ⟨nnn, rfl | rfl⟩ := hi <;> simp [transfersControl]
  | called nnn hsp hi => simp [transfersControl, hi]
  | returned hsp hi => simp [transfersControl, hi]
  | result | resultFlag | drew | cleared | drawn | index | indexFlag | delayTimer | soundTimer =>
    exact .inr (.inr (.inl rfl))
  | stored | loaded => simp

theorem pc_add_ne {pc : Word} (h : pc.toNat + 1 < 0x1000) : pc + 2 ≠ pc ∧ pc + 4 ≠ pc := by
  have htwo : (pc + 2).toNat = pc.toNat + 2 := toNat_pc_add h (k := 2) (by decide)
  have hfour : (pc + 4).toNat = pc.toNat + 4 := toNat_pc_add h (k := 4) (by decide)
  exact ⟨fun heq => by rw [heq] at htwo; omega, fun heq => by rw [heq] at hfour; omega⟩

/-- A wait of the decoded instruction is a key-blocked machine (R101). -/
theorem State.keyBlocked_iff {s : State} :
    s.keyBlocked ↔ s.faulted = false ∧ s.pc.toNat + 1 < 0x1000 ∧
      ∃ i, decodeWord (s.wordAt s.pc.toNat) = .ok i ∧ waits i s = true := by
  unfold State.keyBlocked
  refine and_congr_right fun _ => and_congr_right fun _ => ⟨?_, ?_⟩
  · rintro ⟨⟨x, hx⟩, hkeys⟩
    exact ⟨_, hx, waits_eq_true.mpr ⟨⟨x, rfl⟩, hkeys⟩⟩
  · rintro ⟨i, hi, hwaits⟩
    obtain ⟨⟨x, rfl⟩, hkeys⟩ := waits_eq_true.mp hwaits
    exact ⟨⟨x, hi⟩, hkeys⟩

/-- Settles O54: keys and fontset are among the parts no instruction and no tick writes; and from a PC in range neither two nor
four further is the same PC. -/
theorem stepKeepsKeysAndMovesThePc : Obligations.StepKeepsKeysAndMovesThePc := by
  intro s t h
  obtain ⟨hf, hpc, i, hi, ⟨hwaits, rfl⟩ | ⟨hwaits, u, hu, rfl⟩⟩ := step_eq_next.mp h
  · exact ⟨rfl, rfl, fun _ => .inl (State.keyBlocked_iff.mpr ⟨hf, hpc, i, hi, hwaits⟩)⟩
  · obtain ⟨-, -, -, -, -, -, -, hkey, hfont, -⟩ := eachPartOfTheStateHasItsWriters i s u hu
    refine ⟨hkey, hfont, fun hsame => .inr ⟨i, hi, ?_⟩⟩
    rw [State.tick_pc] at hsame
    rcases (effect_of_exec hu).pc with hwait | hcontrol | htwo | hfour
    · rw [hwaits] at hwait
      cases hwait
    · exact hcontrol
    · exact absurd (htwo.symm.trans hsame) (pc_add_ne hpc).1
    · exact absurd (hfour.symm.trans hsame) (pc_add_ne hpc).2

/-! ### The invariant, one lemma per update -/

section
variable {s : State}

theorem State.Inv.jump (h : s.Inv) {target : Word} (htarget : target.toNat ≤ 0x10FE) : (s.jump target).Inv :=
  ⟨h.mem, h.index, htarget, h.stack, h.running⟩

theorem State.Inv.advance (h : s.Inv) (hpc : s.pc.toNat + 1 < 0x1000) : s.advance.Inv := by
  have htwo : (s.pc + 2).toNat = s.pc.toNat + 2 := toNat_pc_add hpc (k := 2) (by decide)
  exact h.jump (by omega)

theorem State.Inv.skipIf (h : s.Inv) (hpc : s.pc.toNat + 1 < 0x1000) (taken : Bool) : (s.skipIf taken).Inv := by
  have hfour : (s.pc + 4).toNat = s.pc.toNat + 4 := toNat_pc_add hpc (k := 4) (by decide)
  cases taken with
  | false => exact h.advance hpc
  | true => exact h.jump (by omega)

theorem State.Inv.setReg (h : s.Inv) (x : Reg) (w : Byte) : (s.setReg x w).Inv :=
  ⟨h.mem, h.index, h.pc, h.stack, h.running⟩

theorem State.Inv.setFlag (h : s.Inv) (f : Bool) : (s.setFlag f).Inv := h.setReg regVF (flagByte f)

theorem State.Inv.takeDraw (h : s.Inv) : s.takeDraw.Inv := ⟨h.mem, h.index, h.pc, h.stack, h.running⟩

theorem State.Inv.setIndex (h : s.Inv) {a : Word} (ha : a.toNat ≤ 0xFFF) : (s.setIndex a).Inv :=
  ⟨h.mem, ha, h.pc, h.stack, h.running⟩

theorem State.Inv.setDisplay (h : s.Inv) (fb : Framebuffer) (draw : Bool) : { s with fb := fb, draw := draw }.Inv :=
  ⟨h.mem, h.index, h.pc, h.stack, h.running⟩

theorem State.Inv.setTimers (h : s.Inv) (dt st : Byte) : { s with dt := dt, st := st }.Inv :=
  ⟨h.mem, h.index, h.pc, h.stack, h.running⟩

theorem State.Inv.setKeys (h : s.Inv) (key : Vector Bool 16) : { s with key := key }.Inv :=
  ⟨h.mem, h.index, h.pc, h.stack, h.running⟩

theorem State.Inv.loadRegs (h : s.Inv) (base : Nat) (x : Reg) : (s.loadRegs base x).Inv where
  mem := by simpa using h.mem
  index := by simpa using h.index
  pc := by simpa using h.pc
  stack := by simpa using h.stack
  running := by simpa using h.running

theorem State.Inv.storeBytes (h : s.Inv) (base : Nat) (ws : List Byte) : (s.storeBytes base ws).Inv where
  mem := State.storeBytes_wf ws base h.mem
  index := by simpa using h.index
  pc := by simpa using h.pc
  stack := by simpa using h.stack
  running := by simpa using h.running

theorem State.Inv.setStack (h : s.Inv) {stack : Vector Word 16} (hstack : ∀ k : Fin 16, stack[k].toNat ≤ 0x1000)
    (sp : Fin 17) : { s with stack := stack, sp := sp }.Inv :=
  ⟨h.mem, h.index, h.pc, hstack, h.running⟩

/-- The return address of a call fetched in range is at most 0x1000 (R123). -/
theorem State.Inv.called (h : s.Inv) (hpc : s.pc.toNat + 1 < 0x1000) (nnn : Addr) (hsp : s.sp.val < 16) :
    (s.called nnn hsp).Inv := by
  have htwo : (s.pc + 2).toNat = s.pc.toNat + 2 := toNat_pc_add hpc (k := 2) (by decide)
  have hnnn := nnn.isLt
  refine State.Inv.jump (h.setStack (fun k => ?_) _) (by rw [toNat_addrOperand]; omega)
  simp only [Fin.getElem_fin, Vector.getElem_set]
  split
  · omega
  · exact h.stack k

theorem State.Inv.returned (h : s.Inv) (hsp : 0 < s.sp.val) : (s.returned hsp).Inv := by
  have hslot : s.stack[s.sp.val - 1].toNat ≤ 0x1000 := h.stack ⟨s.sp.val - 1, by omega⟩
  exact State.Inv.jump (h.setStack h.stack _) (by omega)

/-- Every shape of an instruction fetched in range keeps the invariant. -/
theorem Effect.inv {i : Instr} {t : State} (he : Effect i s t) (h : s.Inv) (hpc : s.pc.toNat + 1 < 0x1000) : t.Inv := by
  cases he with
  | waited => exact h
  | skipped taken => exact h.skipIf hpc taken
  | result x w => exact (h.setReg x w).advance hpc
  | resultFlag x w f => exact ((h.setReg x w).setFlag f).advance hpc
  | drew x w => exact (h.takeDraw.setReg x w).advance hpc
  | jumped target htarget => exact h.jump htarget
  | called nnn hsp => exact h.called hpc nnn hsp
  | returned hsp => exact h.returned hsp
  | cleared => exact (h.setDisplay _ _).advance hpc
  | drawn => exact ((h.setDisplay _ _).setFlag _).advance hpc
  | index a ha => exact (h.setIndex ha).advance hpc
  | indexFlag a f ha => exact ((h.setIndex ha).setFlag f).advance hpc
  | delayTimer w => exact (h.setTimers w s.st).advance hpc
  | soundTimer w => exact (h.setTimers s.dt w).advance hpc
  | stored ws => exact (h.storeBytes _ ws).advance (by simpa using hpc)
  | loaded x => exact (h.loadRegs _ x).advance (by simpa using hpc)

end

/-- Settles O3: a step that answers a next state waits, or runs an instruction fetched in range and ticks; each shape keeps the
invariant, and the tick writes the timers alone. -/
theorem stepKeepsTheInvariant : Obligations.StepKeepsTheInvariant := by
  intro s t h hstep
  obtain ⟨-, hpc, i, -, ⟨-, rfl⟩ | ⟨-, u, hu, rfl⟩⟩ := step_eq_next.mp hstep
  · exact h
  · exact ((effect_of_exec hu).inv h hpc).setTimers _ _

/-- Settles O2: memory lists nothing, I and every slot are 0, and PC is 0x200. -/
theorem resetStateMeetsTheInvariant : Obligations.ResetStateMeetsTheInvariant := fun font =>
  ⟨Memory.nil_wf font, by simp [State.resetWith], by simp [State.resetWith], fun k => by simp [State.resetWith], rfl⟩

end Sys2Proof.Machine
end

section
/-! PROOFS. The errors of the instructions (R211, R57), and the noninterference of the registers outside the read column
(R24). -/

namespace Sys2Proof.Machine

/-! ### Errors -/

/-- The instructions without an error of their own: all but those of R211's list. -/
def neverFaults : Instr → Bool
  | .call _ | .ret | .skp _ | .sknp _ | .drw _ _ _ | .ldB _ | .ldMemV _ | .ldVMem _ => false
  | _ => true

theorem exec_of_neverFaults {i : Instr} (h : neverFaults i = true) (s : State) : ∃ t, exec i s = .next t := by
  cases i with
  | call | ret | skp | sknp | drw | ldB | ldMemV | ldVMem => cases h
  | ldVK x =>
    rcases exec_ldVK_cases x s with ⟨-, hexec⟩ | ⟨k, -, -, hexec⟩
    · exact ⟨_, hexec⟩
    · exact ⟨_, hexec⟩
  | _ => exact ⟨_, rfl⟩

theorem exec_call_eq_fault {nnn : Addr} {s : State} {e : Fault} :
    exec (.call nnn) s = .fault e ↔ s.sp.val = 16 ∧ e = .stackOverflow s.pc := by
  rcases Nat.lt_or_ge s.sp.val 16 with hsp | hsp
  · simp [exec_call_of_lt nnn hsp, hsp.ne]
  · have hfull : s.sp.val = 16 := by omega
    simp [exec_call_of_full nnn hfull, hfull, eq_comm (a := e)]

theorem exec_ret_eq_fault {s : State} {e : Fault} :
    exec .ret s = .fault e ↔ s.sp.val = 0 ∧ e = .stackUnderflow s.pc := by
  rcases Nat.eq_zero_or_pos s.sp.val with hsp | hsp
  · simp only [exec_ret_of_empty hsp, hsp, Host.Outcome.fault.injEq, true_and, eq_comm (a := e)]
  · simp only [exec_ret_of_pos hsp, hsp.ne', reduceCtorEq, false_and]

theorem exec_skp_eq_fault {x : Reg} {s : State} {e : Fault} :
    exec (.skp x) s = .fault e ↔ 16 ≤ (s.reg x).toNat ∧ e = .invalidKeyIndex (s.reg x) := by
  rw [← keyIndex_eq_none]
  cases hk : keyIndex (s.reg x) with
  | none => simp [exec_skp_of_no_key hk, eq_comm (a := e)]
  | some k => simp [exec_skp_of_key hk]

theorem exec_sknp_eq_fault {x : Reg} {s : State} {e : Fault} :
    exec (.sknp x) s = .fault e ↔ 16 ≤ (s.reg x).toNat ∧ e = .invalidKeyIndex (s.reg x) := by
  rw [← keyIndex_eq_none]
  cases hk : keyIndex (s.reg x) with
  | none => simp [exec_sknp_of_no_key hk, eq_comm (a := e)]
  | some k => simp [exec_sknp_of_key hk]

/-- With I in its range, the first address of an access above 0xFFF is 0x1000 (D16). -/
theorem guardAccess_dataBase_eq_fault {s t : State} (hi : s.i.toNat ≤ 0xFFF) {count : Nat} {e : Fault} :
    guardAccess s.dataBase count t = .fault e ↔ 0x1000 < s.i.toNat + count ∧ e = .memoryOutOfBounds 0x1000 := by
  have hmax : max s.dataBase 0x1000 = 0x1000 := Nat.max_eq_right (Nat.le_succ_of_le hi)
  rw [guardAccess_eq_fault, hmax, ← and_assoc]
  refine and_congr_left fun _ => ⟨And.right, fun h => ⟨?_, h⟩⟩
  omega

theorem exec_ne_refused (i : Instr) (s : State) (r : Refusal) : exec i s ≠ .refused r := by
  cases hi : neverFaults i with
  | true =>
    obtain ⟨t, ht⟩ := exec_of_neverFaults hi s
    simp [ht]
  | false =>
    cases i with
    | call nnn =>
      rcases Nat.lt_or_ge s.sp.val 16 with hsp | hsp
      · simp [exec_call_of_lt nnn hsp]
      · simp [exec_call_of_full nnn (show s.sp.val = 16 by omega)]
    | ret =>
      rcases Nat.eq_zero_or_pos s.sp.val with hsp | hsp
      · simp [exec_ret_of_empty hsp]
      · simp [exec_ret_of_pos hsp]
    | skp x =>
      cases hk : keyIndex (s.reg x) with
      | none => simp [exec_skp_of_no_key hk]
      | some k => simp [exec_skp_of_key hk]
    | sknp x =>
      cases hk : keyIndex (s.reg x) with
      | none => simp [exec_sknp_of_no_key hk]
      | some k => simp [exec_sknp_of_key hk]
    | drw x y n => exact guardAccess_ne_refused _ _ _ r
    | ldB x | ldMemV x | ldVMem x => exact guardAccess_ne_refused _ _ _ r
    | _ => cases hi

/-- Settles O50: an instruction outside R211's list always answers a next state, and for each one in it the condition of its error
is known. -/
theorem instructionErrorsAreTheListedOnes : Obligations.InstructionErrorsAreTheListedOnes := by
  refine fun i s hbound => ⟨exec_ne_refused i s, fun e => ?_⟩
  cases hi : neverFaults i with
  | true =>
    obtain ⟨t, ht⟩ := exec_of_neverFaults hi s
    rw [ht]
    constructor
    · intro h
      cases h
    · rintro (⟨nnn, rfl, -⟩ | ⟨rfl, -⟩ | ⟨x, rfl | rfl, -⟩ | ⟨x, y, n, rfl, -⟩ | ⟨x, rfl, -⟩ | ⟨x, rfl | rfl, -⟩) <;> cases hi
  | false =>
    cases i with
    | call nnn => simp [exec_call_eq_fault]
    | ret => simp [exec_ret_eq_fault]
    | skp x => simp [exec_skp_eq_fault]
    | sknp x => simp [exec_sknp_eq_fault]
    | drw x y n =>
      rw [exec_drw, guardAccess_dataBase_eq_fault hbound]
      simp
    | ldB x =>
      have hlast : 0x1000 < s.i.toNat + 3 ↔ 0xFFF < s.i.toNat + 2 := by omega
      rw [exec_ldB, guardAccess_dataBase_eq_fault hbound, hlast]
      simp
    | ldMemV x =>
      have hlast : 0x1000 < s.i.toNat + (x.val + 1) ↔ 0xFFF < s.i.toNat + x.val := by omega
      rw [exec_ldMemV, guardAccess_dataBase_eq_fault hbound, hlast]
      simp
    | ldVMem x =>
      have hlast : 0x1000 < s.i.toNat + (x.val + 1) ↔ 0xFFF < s.i.toNat + x.val := by omega
      rw [exec_ldVMem, guardAccess_dataBase_eq_fault hbound, hlast]
      simp
    | _ => cases hi

/-! ### Two states that differ in general registers alone -/

/-- A state with other general registers. -/
def State.replaceRegs (s : State) (v : Vector Byte 16) : State := { s with v := v }

theorem agreeButRegs_iff {s s' : State} : agreeButRegs s s' ↔ ∃ v, s' = s.replaceRegs v :=
  ⟨fun h => ⟨s'.v, h.symm⟩, fun ⟨_, h⟩ => by rw [h]; rfl⟩

/-- Two outcomes that are the same error, or next states that differ in general registers alone and agree on those listed. -/
def outcomesAgree (xs : List Reg) : Outcome → Outcome → Prop
  | .next t, .next t' => agreeButRegs t t' ∧ ∀ r ∈ xs, t.reg r = t'.reg r
  | .fault e, .fault e' => e = e'
  | .refused r, .refused r' => r = r'
  | _, _ => False

theorem outcomesAgree_of_fault {xs : List Reg} {e : Fault} {o : Outcome} (h : outcomesAgree xs (.fault e) o) :
    o = .fault e := by
  cases o with
  | fault e' => exact congrArg Host.Outcome.fault (Eq.symm h)
  | next | refused => cases h

theorem outcomesAgree_of_next {xs : List Reg} {t : State} {o : Outcome} (h : outcomesAgree xs (.next t) o) :
    ∃ t', o = .next t' ∧ agreeButRegs t t' ∧ ∀ r ∈ xs, t.reg r = t'.reg r := by
  cases o with
  | next t' => exact ⟨t', rfl, h⟩
  | fault | refused => cases h

section
variable (s : State) (v : Vector Byte 16)

/-- An update that writes no register. -/
theorem outcomesAgree_next {t t' : State} (h : agreeButRegs t t') : outcomesAgree [] (.next t) (.next t') :=
  ⟨h, fun _ hr => absurd hr List.not_mem_nil⟩

theorem outcomesAgree_skipIf {c c' : Bool} (hc : c = c') :
    outcomesAgree [] (.next (s.skipIf c)) (.next ((s.replaceRegs v).skipIf c')) := by
  subst hc
  exact outcomesAgree_next (by cases c <;> rfl)

theorem outcomesAgree_setResult (x : Reg) {w w' : Byte} (hw : w = w') :
    outcomesAgree [x] (.next (s.setResult x w)) (.next ((s.replaceRegs v).setResult x w')) := by
  refine ⟨rfl, fun r hr => ?_⟩
  obtain rfl := List.mem_singleton.mp hr
  simpa using hw

theorem outcomesAgree_setResultFlag (x : Reg) {w w' : Byte} {f f' : Bool} (hw : w = w') (hf : f = f') :
    outcomesAgree [x, regVF] (.next (s.setResultFlag x w f)) (.next ((s.replaceRegs v).setResultFlag x w' f')) := by
  refine ⟨rfl, fun r hr => ?_⟩
  rw [State.reg_setResultFlag, State.reg_setResultFlag, hw, hf]
  rcases List.mem_pair.mp hr with rfl | rfl <;> simp

/-- The shape of a rule that writes VF alone among the registers, and then advances. -/
theorem outcomesAgree_setFlag_advance {f f' : Bool} (hf : f = f') :
    outcomesAgree [regVF] (.next (s.setFlag f).advance) (.next ((s.replaceRegs v).setFlag f').advance) := by
  refine ⟨rfl, fun r hr => ?_⟩
  obtain rfl := List.mem_singleton.mp hr
  rw [State.reg_advance, State.reg_advance, State.reg_setFlag, State.reg_setFlag, hf, if_pos rfl, if_pos rfl]

theorem outcomesAgree_guardAccess {xs : List Reg} {base count : Nat} {t t' : State}
    (h : outcomesAgree xs (.next t) (.next t')) :
    outcomesAgree xs (guardAccess base count t) (guardAccess base count t') := by
  unfold guardAccess
  split
  · rfl
  · exact h

theorem State.storeBytes_replaceRegs (ws : List Byte) (base : Nat) :
    (s.replaceRegs v).storeBytes base ws = (s.storeBytes base ws).replaceRegs v := by
  induction ws generalizing base s with
  | nil => rfl
  | cons w ws ih => exact ih (s.setByte base w) (base + 1)

theorem outcomesAgree_storeBytes (base : Nat) {ws ws' : List Byte} (hws : ws = ws') :
    outcomesAgree [] (.next (s.storeBytes base ws).advance) (.next ((s.replaceRegs v).storeBytes base ws').advance) := by
  rw [hws, State.storeBytes_replaceRegs]
  exact outcomesAgree_next rfl

theorem outcomesAgree_loadRegs (base : Nat) (x : Reg) :
    outcomesAgree (regsThrough x) (.next (s.loadRegs base x).advance)
      (.next ((s.replaceRegs v).loadRegs base x).advance) := by
  refine ⟨rfl, fun r hr => ?_⟩
  have hle : r ≤ x := by simpa [regsThrough] using hr
  rw [State.reg_advance, State.reg_advance, State.reg_loadRegs, State.reg_loadRegs, if_pos hle, if_pos hle]
  rfl

end

/-- The registers V0..VX as a list depend on those registers alone. -/
theorem State.regsUpTo_congr {s s' : State} {x : Reg} (h : ∀ r ∈ regsThrough x, s.reg r = s'.reg r) :
    s.regsUpTo x = s'.regsUpTo x := by
  refine List.ext_getElem (by simp) fun k hk hk' => ?_
  have hkx : k ≤ x.val := by
    rw [State.length_regsUpTo] at hk
    omega
  rw [← List.getD_eq_getElem _ 0 hk, ← List.getD_eq_getElem _ 0 hk', State.getD_regsUpTo s hkx, State.getD_regsUpTo s' hkx]
  have hmem : (⟨k, by omega⟩ : Reg) ∈ regsThrough x := List.mem_filter.mpr ⟨List.mem_finRange _, decide_eq_true hkx⟩
  exact h _ hmem

/-- The relational step: an instruction whose read column agrees does the same in both states. -/
theorem exec_replaceRegs (i : Instr) (s : State) (v : Vector Byte 16)
    (hreads : ∀ r ∈ readsOf i, s.reg r = (s.replaceRegs v).reg r) :
    outcomesAgree (if waits i s = true then [] else writesOf i) (exec i s) (exec i (s.replaceRegs v)) := by
  cases i with
  | cls | ldI nnn | jp nnn => exact outcomesAgree_next rfl
  | ret =>
    rcases Nat.eq_zero_or_pos s.sp.val with hsp | hsp
    · rw [exec_ret_of_empty hsp, exec_ret_of_empty (s := s.replaceRegs v) hsp]
      rfl
    · rw [exec_ret_of_pos hsp, exec_ret_of_pos (s := s.replaceRegs v) hsp]
      exact outcomesAgree_next rfl
  | call nnn =>
    rcases Nat.lt_or_ge s.sp.val 16 with hsp | hsp
    · rw [exec_call_of_lt nnn hsp, exec_call_of_lt (s := s.replaceRegs v) nnn hsp]
      exact outcomesAgree_next rfl
    · have hfull : s.sp.val = 16 := by omega
      rw [exec_call_of_full nnn hfull, exec_call_of_full (s := s.replaceRegs v) nnn hfull]
      rfl
  | seImm x nn | sneImm x nn => exact outcomesAgree_skipIf s v (by rw [hreads x (by simp [readsOf])])
  | seReg x y | sneReg x y =>
    have hx := hreads x (by simp [readsOf])
    have hy := hreads y (by simp [readsOf])
    exact outcomesAgree_skipIf s v (by rw [hx, hy])
  | ldImm x | ldVDt x => exact outcomesAgree_setResult s v x rfl
  | rnd x nn => exact outcomesAgree_setResult s.takeDraw v x rfl
  | addImm x nn => exact outcomesAgree_setResult s v x (by rw [hreads x (by simp [readsOf])])
  | ldReg x y => exact outcomesAgree_setResult s v x (hreads y (by simp [readsOf]))
  | or x y | and x y | xor x y =>
    have hx := hreads x (by simp [readsOf])
    have hy := hreads y (by simp [readsOf])
    exact outcomesAgree_setResult s v x (by rw [hx, hy])
  | addReg x y | sub x y | subn x y =>
    have hx := hreads x (by simp [readsOf])
    have hy := hreads y (by simp [readsOf])
    exact outcomesAgree_setResultFlag s v x (by rw [hx, hy]) (by rw [hx, hy])
  | shr x y | shl x y =>
    have hx := hreads x (by simp [readsOf])
    exact outcomesAgree_setResultFlag s v x (by rw [hx]) (by rw [hx])
  | jpV0 nnn =>
    have h0 := hreads 0 (by simp [readsOf])
    have htarget : (s.replaceRegs v).indexedTarget nnn = s.indexedTarget nnn := by
      rw [State.indexedTarget, State.indexedTarget, h0]
    rw [exec_jpV0, exec_jpV0, htarget]
    exact outcomesAgree_next rfl
  | drw x y n =>
    have hx := hreads x (by simp [readsOf])
    have hy := hreads y (by simp [readsOf])
    have hblit : (s.replaceRegs v).spriteBlit x y n = s.spriteBlit x y n := by
      rw [State.spriteBlit, State.spriteBlit, hx, hy]
      rfl
    rw [exec_drw, exec_drw, State.drawn, State.drawn, hblit]
    exact outcomesAgree_guardAccess
      (outcomesAgree_setFlag_advance { s with fb := (s.spriteBlit x y n).fb, draw := true } v rfl)
  | skp x =>
    have hx := hreads x (by simp [readsOf])
    cases hk : keyIndex (s.reg x) with
    | none =>
      rw [exec_skp_of_no_key hk, exec_skp_of_no_key (hx ▸ hk), hx]
      rfl
    | some k =>
      rw [exec_skp_of_key hk, exec_skp_of_key (hx ▸ hk)]
      exact outcomesAgree_skipIf s v rfl
  | sknp x =>
    have hx := hreads x (by simp [readsOf])
    cases hk : keyIndex (s.reg x) with
    | none =>
      rw [exec_sknp_of_no_key hk, exec_sknp_of_no_key (hx ▸ hk), hx]
      rfl
    | some k =>
      rw [exec_sknp_of_key hk, exec_sknp_of_key (hx ▸ hk)]
      exact outcomesAgree_skipIf s v rfl
  | ldVK x =>
    rcases exec_ldVK_cases x s with ⟨hkeys, hexec⟩ | ⟨k, hk, hpressed, hexec⟩
    · have hwaits : waits (.ldVK x) s = true := waits_eq_true.mpr ⟨⟨x, rfl⟩, hkeys⟩
      rw [if_pos hwaits, hexec, exec_ldVK_of_no_key (s := s.replaceRegs v) x hkeys]
      exact outcomesAgree_next rfl
    · have hwaits : waits (.ldVK x) s ≠ true := fun h => by
        have hnone := (waits_eq_true.mp h).2 k
        rw [hpressed] at hnone
        cases hnone
      rw [if_neg hwaits, hexec, exec_ldVK_of_chosen (s := s.replaceRegs v) x hk]
      exact outcomesAgree_setResult s.takeDraw v x rfl
  | ldDt x =>
    rw [exec_ldDt, exec_ldDt, hreads x (by simp [readsOf])]
    exact outcomesAgree_next rfl
  | ldSt x =>
    rw [exec_ldSt, exec_ldSt, hreads x (by simp [readsOf])]
    exact outcomesAgree_next rfl
  | ldF x =>
    rw [exec_ldF, exec_ldF, hreads x (by simp [readsOf])]
    exact outcomesAgree_next rfl
  | addI x =>
    have hx := hreads x (by simp [readsOf])
    have hsum : (s.replaceRegs v).indexSum x = s.indexSum x := by
      rw [State.indexSum, State.indexSum, hx]
      rfl
    rw [exec_addI, exec_addI, hsum]
    exact outcomesAgree_setFlag_advance (s.setIndex (s.indexSum x)) v (by rw [hx]; rfl)
  | ldB x =>
    rw [exec_ldB, exec_ldB]
    exact outcomesAgree_guardAccess (outcomesAgree_storeBytes s v _ (by rw [hreads x (by simp [readsOf])]))
  | ldMemV x =>
    rw [exec_ldMemV, exec_ldMemV]
    exact outcomesAgree_guardAccess (outcomesAgree_storeBytes s v _ (State.regsUpTo_congr hreads))
  | ldVMem x =>
    rw [exec_ldVMem, exec_ldVMem]
    exact outcomesAgree_guardAccess (outcomesAgree_loadRegs s v _ x)

/-- Settles O52: the second state is the first with other registers, and the relational step says what the two outcomes share. -/
theorem resultsDependOnTheReadColumnOnly : Obligations.ResultsDependOnTheReadColumnOnly := by
  intro i s s' hagree hreads
  obtain ⟨v, rfl⟩ := agreeButRegs_iff.mp hagree
  have hout := exec_replaceRegs i s v hreads
  refine ⟨fun e he => ?_, fun t ht => ?_⟩
  · rw [he] at hout
    exact outcomesAgree_of_fault hout
  · rw [ht] at hout
    obtain ⟨t', ht', hbut, hregs⟩ := outcomesAgree_of_next hout
    exact ⟨t', ht', hbut, fun hwaits r hr => hregs r (by simpa [hwaits] using hr)⟩

end Sys2Proof.Machine
end

section
/-! PROOFS. The cycle (R90–R102): every way a cycle can end, the instruction it runs, the wait, and the machine at the halt
idiom. -/

namespace Sys2Proof.Machine

/-! ### Every way a cycle can end -/

theorem runInstr_of_waits {i : Instr} {s : State} (h : waits i s = true) : runInstr i s = .waiting s := if_pos h

theorem runInstr_of_next {i : Instr} {s t : State} (hw : waits i s = false) (h : exec i s = .next t) :
    runInstr i s = .completed t.beeps t.tick := by simp [runInstr, hw, h]

theorem runInstr_of_fault {i : Instr} {s : State} {e : Fault} (hw : waits i s = false) (h : exec i s = .fault e) :
    runInstr i s = .fault e (s.enterFault e) := by simp [runInstr, hw, h]

/-- An instruction that runs waits, answers a next state, or faults; none is refused. -/
theorem runInstr_cases (i : Instr) (s : State) :
    (waits i s = true ∧ runInstr i s = .waiting s) ∨
    (∃ t, waits i s = false ∧ exec i s = .next t ∧ runInstr i s = .completed t.beeps t.tick) ∨
    ∃ e, runInstr i s = .fault e (s.enterFault e) := by
  cases hw : waits i s with
  | true => exact .inl ⟨rfl, runInstr_of_waits hw⟩
  | false =>
    cases he : exec i s with
    | next t => exact .inr (.inl ⟨t, rfl, rfl, runInstr_of_next hw he⟩)
    | fault e => exact .inr (.inr ⟨e, runInstr_of_fault hw he⟩)
    | refused r => exact absurd he (exec_ne_refused i s r)

theorem cycle_of_faulted {s : State} (h : s.faulted = true) : cycle s = .stuck := by simp [cycle, h]

theorem cycle_of_fetch_error {s : State} {e : Fault} (hf : s.faulted = false) (h : s.fetch = .error e) :
    cycle s = .fault e (s.enterFault e) := by simp [cycle, hf, h]

theorem cycle_of_unknown {s : State} (hf : s.faulted = false) (hpc : s.pc.toNat + 1 < 0x1000)
    (h : decodeOpcode (s.wordAt s.pc.toNat) = none) :
    cycle s = .fault (.unknownOpcode (s.wordAt s.pc.toNat)) (s.enterFault (.unknownOpcode (s.wordAt s.pc.toNat))) := by
  have hfetch : s.fetch = .ok (s.wordAt s.pc.toNat) := State.fetch_eq_ok.mpr ⟨hpc, rfl⟩
  simp [cycle, hf, hfetch, decodeWord_eq_error.mpr ⟨h, rfl⟩]

/-- A cycle is stuck on a faulted machine, or ends in an error of fetch or decode, or runs the instruction at PC. -/
theorem cycle_cases (s : State) :
    (s.faulted = true ∧ cycle s = .stuck) ∨ (∃ e, cycle s = .fault e (s.enterFault e)) ∨
    (s.faulted = false ∧ s.pc.toNat + 1 < 0x1000 ∧
      ∃ i, decodeWord (s.wordAt s.pc.toNat) = .ok i ∧ cycle s = runInstr i s) := by
  cases hf : s.faulted with
  | true => exact .inl ⟨rfl, cycle_of_faulted hf⟩
  | false =>
    rcases Nat.lt_or_ge (s.pc.toNat + 1) 0x1000 with hpc | hpc
    · cases hd : decodeOpcode (s.wordAt s.pc.toNat) with
      | none => exact .inr (.inl ⟨_, cycle_of_unknown hf hpc hd⟩)
      | some i =>
        have hi := decodeWord_eq_ok.mpr hd
        exact .inr (.inr ⟨rfl, hpc, i, hi, cycle_of_decoded hf hpc hi⟩)
    · exact .inr (.inl ⟨_, cycle_of_fetch_error hf (State.fetch_eq_error.mpr ⟨hpc, rfl⟩)⟩)

/-- A cycle that faults leaves the machine that the fatal error leaves (R208). -/
theorem eq_enterFault_of_cycle {s u : State} {e : Fault} (h : cycle s = .fault e u) : u = s.enterFault e := by
  rcases cycle_cases s with ⟨-, hc⟩ | ⟨e', hc⟩ | ⟨-, -, i, -, hc⟩
  · cases hc.symm.trans h
  · cases hc.symm.trans h
    rfl
  · rcases runInstr_cases i s with ⟨-, hr⟩ | ⟨t, -, -, hr⟩ | ⟨e', hr⟩ <;> cases hr.symm.trans (hc.symm.trans h)
    rfl

/-- No cycle is refused. -/
theorem cycle_ne_refused (s : State) (r : Refusal) : cycle s ≠ .refused r := by
  intro h
  rcases cycle_cases s with ⟨-, hc⟩ | ⟨e', hc⟩ | ⟨-, -, i, -, hc⟩
  · cases hc.symm.trans h
  · cases hc.symm.trans h
  · rcases runInstr_cases i s with ⟨-, hr⟩ | ⟨t, -, -, hr⟩ | ⟨e', hr⟩ <;> cases hr.symm.trans (hc.symm.trans h)

/-- Only a faulted machine is stuck (R100). -/
theorem cycle_eq_stuck {s : State} : cycle s = .stuck ↔ s.faulted = true := by
  refine ⟨fun h => ?_, cycle_of_faulted⟩
  rcases cycle_cases s with ⟨hf, -⟩ | ⟨e', hc⟩ | ⟨-, -, i, -, hc⟩
  · exact hf
  · cases hc.symm.trans h
  · rcases runInstr_cases i s with ⟨-, hr⟩ | ⟨t, -, -, hr⟩ | ⟨e', hr⟩ <;> cases hr.symm.trans (hc.symm.trans h)

/-- A step is its cycle without the outputs. -/
theorem step_of_cycle {s : State} {r : CycleResult} (h : cycle s = r) : step s = outcomeOf r := congrArg outcomeOf h

/-! ### The obligations on one cycle -/

/-- Settles O11: the cycle is `runInstr` of the decoded instruction, whose three ways are its wait, its next state and its
fault. -/
theorem stepRunsTheDecodedInstruction : Obligations.StepRunsTheDecodedInstruction := by
  intro s i hf hpc hd
  have hcycle : cycle s = runInstr i s := cycle_of_decoded hf hpc hd
  refine ⟨fun hw => ?waits, fun hw => ⟨fun t ht => ?next, fun e he => ?fault⟩⟩
  case waits =>
    have hc := hcycle.trans (runInstr_of_waits hw)
    exact ⟨step_of_cycle hc, hc⟩
  case next =>
    have hc := hcycle.trans (runInstr_of_next hw ht)
    exact ⟨step_of_cycle hc, hc⟩
  case fault =>
    have hc := hcycle.trans (runInstr_of_fault hw he)
    exact ⟨step_of_cycle hc, hc⟩

/-- A word that does not decode stops the step (R78). -/
theorem step_of_unknown {s : State} (hf : s.faulted = false) (hpc : s.pc.toNat + 1 < 0x1000)
    (h : decodeOpcode (s.wordAt s.pc.toNat) = none) : step s = .fault (.unknownOpcode (s.wordAt s.pc.toNat)) :=
  step_of_cycle (cycle_of_unknown hf hpc h)

/-- Settles O12: the fetch fails exactly out of range, and a word that decodes to no instruction is unknown. -/
theorem fetchAndDecodeErrorsStopTheStep : Obligations.FetchAndDecodeErrorsStopTheStep := by
  refine fun s hf => ⟨fun hpc => step_of_fetch_error hf (State.fetch_eq_error.mpr ⟨hpc, rfl⟩),
    fun hpc hd => step_of_unknown hf hpc ?_⟩
  exact Option.eq_none_iff_forall_ne_some.mpr fun i hi => hd i (decodeWord_eq_ok.mpr hi)

/-- Settles O15: the ways a cycle completes give the instruction and the state it leaves, of which the cycle's state is the
tick. -/
theorem completedCycleTicksOnce : Obligations.CompletedCycleTicksOnce := by
  intro s u beep h
  obtain ⟨-, -, i, hi, -, t, ht, rfl, rfl⟩ := cycle_eq_completed.mp h
  exact ⟨i, t, hi, ht, toNat_tickDown t.dt, toNat_tickDown t.st, rfl, State.beeps_eq_true⟩

/-- Settles O16: of the ways a cycle can end only a wait answers `waiting`, and it answers the state as it is. -/
theorem cycleWaitsExactlyWhenKeyBlocked : Obligations.CycleWaitsExactlyWhenKeyBlocked := by
  intro s u
  rw [State.keyBlocked_iff]
  constructor
  · intro h
    rcases cycle_cases s with ⟨-, hc⟩ | ⟨e, hc⟩ | ⟨hf, hpc, i, hi, hc⟩
    · cases hc.symm.trans h
    · cases hc.symm.trans h
    · rcases runInstr_cases i s with ⟨hw, hr⟩ | ⟨t, -, -, hr⟩ | ⟨e, hr⟩ <;> cases hr.symm.trans (hc.symm.trans h)
      exact ⟨⟨hf, hpc, i, hi, hw⟩, rfl⟩
  · rintro ⟨⟨hf, hpc, i, hi, hw⟩, rfl⟩
    exact (cycle_of_decoded hf hpc hi).trans (runInstr_of_waits hw)

/-! ### The halt idiom (R17, R101) -/

/-- A cycle at the halt idiom is a tick alone: the jump goes to its own address. -/
theorem State.atHaltIdiom.cycle_eq_tick {s : State} (h : s.atHaltIdiom) : cycle s = .completed s.beeps s.tick := by
  obtain ⟨hf, hpc, nnn, hd, hself⟩ := h
  have htarget : addrOperand nnn = s.pc := BitVec.eq_of_toNat_eq ((toNat_addrOperand nnn).trans hself)
  have hexec : exec (.jp nnn) s = .next s := by
    rw [exec_jp, htarget]
    rfl
  exact (cycle_of_decoded hf hpc hd).trans (runInstr_of_next rfl hexec)

/-- Timers at 0 do not move. -/
theorem State.tick_of_zero {s : State} (hdt : s.dt = 0) (hst : s.st = 0) : s.tick = s := by
  have hdt' : tickDown s.dt = s.dt := by rw [hdt]; rfl
  have hst' : tickDown s.st = s.st := by rw [hst]; rfl
  rw [State.tick, hdt', hst']

/-- Settles O17: at the halt idiom a cycle is a tick alone, which at 0 neither beeps nor moves a timer. -/
theorem haltedMachineStaysAsItIs : Obligations.HaltedMachineStaysAsItIs := by
  rintro s ⟨hidiom, hdt, hst⟩
  have hbeep : s.beeps = false := by simp [State.beeps, hst]
  rw [hidiom.cycle_eq_tick, hbeep, State.tick_of_zero hdt hst]

/-- The state after some ticks: each timer that much lower, and 0 once it has run out. -/
def State.afterTicks (s : State) (n : Nat) : State :=
  { s with dt := BitVec.ofNat 8 (s.dt.toNat - n), st := BitVec.ofNat 8 (s.st.toNat - n) }

@[simp] theorem State.afterTicks_zero (s : State) : s.afterTicks 0 = s := by simp [State.afterTicks]

theorem State.afterTicks_tick (s : State) (n : Nat) : s.tick.afterTicks n = s.afterTicks (n + 1) := by
  have hdt : s.tick.dt.toNat - n = s.dt.toNat - (n + 1) := by
    rw [State.tick_dt, toNat_tickDown]
    omega
  have hst : s.tick.st.toNat - n = s.st.toNat - (n + 1) := by
    rw [State.tick_st, toNat_tickDown]
    omega
  rw [State.afterTicks, State.afterTicks, hdt, hst]
  rfl

theorem State.toNat_afterTicks (s : State) (n : Nat) :
    (s.afterTicks n).dt.toNat = s.dt.toNat - n ∧ (s.afterTicks n).st.toNat = s.st.toNat - n := by
  have := s.dt.isLt
  have := s.st.isLt
  simp only [State.afterTicks, BitVec.toNat_ofNat]
  omega

/-- The timers have no part in the halt idiom. -/
theorem State.atHaltIdiom.setTimers {s : State} (h : s.atHaltIdiom) (dt st : Byte) :
    State.atHaltIdiom { s with dt := dt, st := st } := h

/-- A run from the halt idiom only ticks. -/
theorem State.atHaltIdiom.run_eq_afterTicks {s : State} (h : s.atHaltIdiom) (n : Nat) :
    Host.Core.run Sys2Proof.core n s = .next (s.afterTicks n) := by
  induction n generalizing s with
  | zero => rw [State.afterTicks_zero]; rfl
  | succ n ih =>
    have hstep : step s = .next s.tick := step_of_cycle h.cycle_eq_tick
    exact (core_run_succ hstep).trans ((ih (h.setTimers _ _)).trans (congrArg Host.Outcome.next (s.afterTicks_tick n)))

theorem ne_zero_of_toNat_pos {t : Byte} (h : 0 < t.toNat) : t ≠ 0 := by
  rintro rfl
  exact absurd h (by decide)

/-- Settles O18: by induction on the number of cycles, a run from the halt idiom only ticks; after max(DT, ST) ticks both timers
are 0, and after fewer one is not. -/
theorem spinningMachineHaltsWhenItsTimersRunOut : Obligations.SpinningMachineHaltsWhenItsTimersRunOut := by
  intro s h
  refine ⟨?_, ⟨h.setTimers 0 0, rfl, rfl⟩, fun n hn => ⟨s.afterTicks n, h.run_eq_afterTicks n, ⟨h.setTimers _ _, ?_⟩, rfl⟩⟩
  · have hdt : s.dt.toNat - max s.dt.toNat s.st.toNat = 0 := by omega
    have hst : s.st.toNat - max s.dt.toNat s.st.toNat = 0 := by omega
    rw [h.run_eq_afterTicks, State.afterTicks, hdt, hst]
    rfl
  · obtain ⟨hdt, hst⟩ := s.toNat_afterTicks n
    rcases lt_max_iff.mp hn with hlt | hlt
    · exact .inl (ne_zero_of_toNat_pos (by omega))
    · exact .inr (ne_zero_of_toNat_pos (by omega))

end Sys2Proof.Machine
end

section
/-! PROOFS. The core interface (R226–R233, R240–R247): every way a call has a move, what sessions keep, and the first step after a
load. -/

namespace Sys2Proof.Machine

/-! ### Every way a call has a move -/

/-- The session a call leads to, by the call and what it does. -/
inductive Move (c : Session) : HostCall → Session → Prop
  | reset : Move c .reset { machine := c.machine.hostReset, phase := .ready }
  | loaded (bytes : List Byte) (hp : c.phase = .ready) :
      Move c (.loadProgram bytes) { machine := c.machine.storeBytes 0x200 bytes, phase := .loaded }
  | loadFailed (bytes : List Byte) (hp : c.phase = .ready) : Move c (.loadProgram bytes) { c with phase := .loaded }
  | cycled (t : State) (hp : c.phase ≠ .unreset)
      (ht : (∃ beep, cycle c.machine = .completed beep t) ∨ cycle c.machine = .waiting t ∨
        ∃ e, cycle c.machine = .fault e t) :
      Move c .stepCycle { machine := t, phase := .running }
  | observed (call : HostCall) (hp : c.phase ≠ .unreset) (hcall : call ≠ .stepCycle)
      (hload : ∀ bytes, call ≠ .loadProgram bytes) : Move c call c
  | drawCleared (hp : c.phase ≠ .unreset) : Move c .clearDrawPending { c with machine := c.machine.clearDrawPending }
  | keySet (index : Nat) (pressed : Bool) (key : Vector Bool 16) (hp : c.phase ≠ .unreset) :
      Move c (.setKeyState index pressed) { c with machine := { c.machine with key := key } }

theorem move_of_callLoadProgram {c c' : Session} {bytes : List Byte} {r : HostReply}
    (h : callLoadProgram bytes c = some (c', r)) : Move c (.loadProgram bytes) c' := by
  obtain ⟨hp, hphase, hmachine⟩ := callLoadProgram_eq_some h
  obtain ⟨t, p⟩ := c'
  obtain rfl : p = .loaded := hphase
  rcases hmachine with ⟨rfl, -⟩ | ⟨rfl, -⟩
  · exact .loaded bytes hp
  · exact .loadFailed bytes hp

theorem move_of_callStepCycle {c c' : Session} {r : HostReply} (hp : c.phase ≠ .unreset)
    (h : callStepCycle c.machine = some (c', r)) : Move c .stepCycle c' := by
  obtain ⟨hphase, hcycle⟩ := callStepCycle_eq_some h
  obtain ⟨t, p⟩ := c'
  obtain rfl : p = .running := hphase
  refine .cycled t hp ?_
  rcases hcycle with ⟨beep, hc, -⟩ | ⟨hc, -⟩ | ⟨e, hc, -⟩
  · exact .inl ⟨beep, hc⟩
  · exact .inr (.inl hc)
  · exact .inr (.inr ⟨e, hc⟩)

theorem move_of_hostCall {c c' : Session} {call : HostCall} {r : HostReply} (h : hostCall c call = some (c', r)) :
    Move c call c' := by
  cases call with
  | reset =>
    cases h
    exact .reset
  | loadProgram bytes => exact move_of_callLoadProgram h
  | stepCycle =>
    obtain ⟨hp, h⟩ := Option.ite_none_left_eq_some.mp h
    exact move_of_callStepCycle hp h
  | readFramebuffer =>
    obtain ⟨hp, h⟩ := Option.ite_none_left_eq_some.mp h
    cases h
    exact .observed _ hp (by simp) (by simp)
  | drawPending =>
    obtain ⟨hp, h⟩ := Option.ite_none_left_eq_some.mp h
    cases h
    exact .observed _ hp (by simp) (by simp)
  | clearDrawPending =>
    obtain ⟨hp, h⟩ := Option.ite_none_left_eq_some.mp h
    cases h
    exact .drawCleared hp
  | setKeyState index pressed =>
    obtain ⟨hp, h⟩ := Option.ite_none_left_eq_some.mp h
    split at h
    · next t ht =>
      obtain ⟨hindex, rfl⟩ := State.setKeyState_eq_ok.mp ht
      cases h
      exact .keySet index pressed _ hp
    · cases h
      exact .observed _ hp (by simp) (by simp)

/-! ### A faulted machine and the invariant -/

/-- Every move but a reset leaves a faulted machine faulted (R208; log 28). -/
theorem Move.faulted {c c' : Session} {call : HostCall} (h : Move c call c') (hf : c.machine.faulted = true)
    (hcall : call ≠ .reset) : c'.machine.faulted = true := by
  cases h with
  | reset => exact absurd rfl hcall
  | loaded bytes => exact (State.storeBytes_faulted _ _ _).trans hf
  | cycled t hp ht =>
    rw [cycle_of_faulted hf] at ht
    rcases ht with ⟨_, h⟩ | h | ⟨_, h⟩ <;> cases h
  | loadFailed | observed | drawCleared | keySet => exact hf

/-- Settles O13: a cycle that faults leaves the machine of `enterFault`, which is faulted; a faulted machine is stuck, and of the
moves only a reset clears the mark. -/
theorem fatalErrorLeavesAMachineWithoutAStep : Obligations.FatalErrorLeavesAMachineWithoutAStep := by
  intro s u e h
  obtain rfl := eq_enterFault_of_cycle h
  have hfaulted : (s.enterFault e).faulted = true := s.enterFault_faulted e
  have hstuck : cycle (s.enterFault e) = .stuck := cycle_of_faulted hfaulted
  refine ⟨step_of_cycle h, hfaulted, hstuck, step_of_cycle hstuck, fun p => ?_, fun p call c' r hcall hmove => ?_,
    State.hostReset_faulted _⟩
  · simp [hostCall, callStepCycle, hstuck]
  · exact (move_of_hostCall hmove).faulted hfaulted hcall

theorem State.Inv.hostReset (s : State) : s.hostReset.Inv :=
  have h := resetStateMeetsTheInvariant s.fontset
  ⟨h.mem, h.index, h.pc, h.stack, h.running⟩

/-- A machine that is faulted or meets the invariant (R208). -/
def State.faultedOrInv (s : State) : Prop := s.faulted = true ∨ s.Inv

/-- Every cycle that ends leaves a machine that is faulted or meets the invariant. -/
theorem State.faultedOrInv.after_cycle {s t : State} (h : s.faultedOrInv)
    (ht : (∃ beep, cycle s = .completed beep t) ∨ cycle s = .waiting t ∨ ∃ e, cycle s = .fault e t) : t.faultedOrInv := by
  rcases h with hf | hinv
  · rw [cycle_of_faulted hf] at ht
    rcases ht with ⟨_, h⟩ | h | ⟨_, h⟩ <;> cases h
  · rcases ht with ⟨beep, hc⟩ | hc | ⟨e, hc⟩
    · exact .inr (stepKeepsTheInvariant s t hinv (step_of_cycle hc))
    · exact .inr (stepKeepsTheInvariant s t hinv (step_of_cycle hc))
    · rw [eq_enterFault_of_cycle hc]
      exact .inl (s.enterFault_faulted e)

theorem Move.faultedOrInv {c c' : Session} {call : HostCall} (h : Move c call c') (hc : c.machine.faultedOrInv) :
    c'.machine.faultedOrInv := by
  cases h with
  | reset => exact .inr (State.Inv.hostReset _)
  | loaded bytes => exact hc.imp (State.storeBytes_faulted _ _ _).trans fun hinv => hinv.storeBytes 0x200 bytes
  | cycled t hp ht => exact hc.after_cycle ht
  | loadFailed | observed => exact hc
  | drawCleared => exact hc.imp id fun hinv => hinv.setDisplay _ _
  | keySet index pressed key => exact hc.imp id fun hinv => hinv.setKeys key

/-- From a session that has not been reset only a reset has a move (R246). -/
theorem Move.eq_reset {c c' : Session} {call : HostCall} (h : Move c call c') (hp : c.phase = .unreset) : call = .reset := by
  cases h with
  | reset => rfl
  | loaded _ hready | loadFailed _ hready => cases hp.symm.trans hready
  | cycled _ hne | observed _ hne | drawCleared hne | keySet _ _ _ hne => exact absurd hp hne

/-- Settles O4: from an unreset session only a reset has a move, and its machine meets the invariant; every other move keeps
being faulted or meeting the invariant. -/
theorem hostCallsKeepTheInvariant : Obligations.HostCallsKeepTheInvariant := by
  intro c c' call r hc h
  have hmove := move_of_hostCall h
  rcases hc with hp | hc
  · obtain rfl := hmove.eq_reset hp
    cases h
    exact .inr (.inr (State.Inv.hostReset _))
  · exact .inr (hmove.faultedOrInv hc)

/-! ### The host's duties -/

theorem exists_callLoadProgram {c : Session} (hp : c.phase = .ready) (bytes : List Byte) :
    ∃ p, callLoadProgram bytes c = some p := by
  unfold callLoadProgram
  rw [hp]
  cases c.machine.loadProgram bytes <;> exact ⟨_, rfl⟩

theorem exists_callStepCycle {s : State} (hf : s.faulted = false) : ∃ p, callStepCycle s = some p := by
  unfold callStepCycle
  cases hc : cycle s with
  | completed | waiting | fault => exact ⟨_, rfl⟩
  | stuck =>
    rw [cycle_eq_stuck.mp hc] at hf
    cases hf
  | refused r => exact absurd hc (cycle_ne_refused s r)

/-- After the one load, or the first `step_cycle` (R246). -/
def Session.started (c : Session) : Prop := c.phase = .loaded ∨ c.phase = .running

/-- No call but a reset leads back before the first load or `step_cycle`. -/
theorem Move.started {c c' : Session} {call : HostCall} (h : Move c call c') (hcall : call ≠ .reset) (hc : c.started) :
    c'.started := by
  cases h with
  | reset => exact absurd rfl hcall
  | loaded | loadFailed => exact .inl rfl
  | cycled => exact .inr rfl
  | observed | drawCleared | keySet => exact hc

theorem Session.started.not_ready {c : Session} (h : c.started) : c.phase ≠ .ready := by
  rcases h with h | h <;> simp [h]

theorem phase_of_load {c c' : Session} {bytes : List Byte} (h : Move c (.loadProgram bytes) c') :
    c.phase = .ready ∧ c'.phase = .loaded := by
  cases h with
  | loaded _ hp | loadFailed _ hp => exact ⟨hp, rfl⟩
  | observed _ _ _ hload => exact absurd rfl (hload bytes)

theorem phase_of_stepCycle {c c' : Session} (h : Move c .stepCycle c') :
    c.phase ≠ .unreset ∧ c.machine.faulted = false ∧ c'.phase = .running := by
  cases h with
  | cycled t hp ht =>
    refine ⟨hp, Bool.eq_false_iff.mpr fun hf => ?_, rfl⟩
    rw [cycle_of_faulted hf] at ht
    rcases ht with ⟨_, h⟩ | h | ⟨_, h⟩ <;> cases h
  | observed _ _ hstep => exact absurd rfl hstep

/-- A session that has started has no move for a load. -/
theorem Session.started.load_eq_none {c : Session} (h : c.started) (bytes : List Byte) :
    hostCall c (.loadProgram bytes) = none := by
  cases hl : hostCall c (.loadProgram bytes) with
  | none => rfl
  | some p => exact absurd (phase_of_load (move_of_hostCall hl)).1 h.not_ready

/-- In a session that has started, a load after any calls but a reset has no move. -/
theorem Session.started.hostCalls_load {c : Session} (h : c.started) {calls : List HostCall} (hcalls : .reset ∉ calls)
    (bytes : List Byte) : hostCalls c (calls ++ [.loadProgram bytes]) = none := by
  induction calls generalizing c with
  | nil => simp [hostCalls, h.load_eq_none bytes]
  | cons call calls ih =>
    rw [List.mem_cons, not_or] at hcalls
    rw [List.cons_append, hostCalls]
    split
    · next c' r hmove => exact ih ((move_of_hostCall hmove).started (Ne.symm hcalls.1) h) hcalls.2
    · rfl

/-- After a load or a `step_cycle` the session has started. -/
theorem started_of_move {c c' : Session} {call : HostCall} (h : Move c call c')
    (hcall : call = .stepCycle ∨ ∃ image, call = .loadProgram image) : c'.started := by
  rcases hcall with rfl | ⟨image, rfl⟩
  · exact .inr (phase_of_stepCycle h).2.2
  · exact .inl (phase_of_load h).2

/-- Settles O58: each clause is a case of the moves; the one on sequences runs the calls before, makes the load or
`step_cycle`, and then stays started up to the last load. -/
theorem brokenDutiesHaveNoMove : Obligations.BrokenDutiesHaveNoMove := by
  intro c
  refine ⟨fun hp call hcall => ?unreset, fun bytes => ⟨exists_callLoadProgram (bytes := bytes), ?ready⟩,
    fun bytes c' r h => (phase_of_load (move_of_hostCall h)).2, ⟨?step, ?stepConverse⟩,
    fun c' r h => (phase_of_stepCycle (move_of_hostCall h)).2.2, fun call c' r hcall h => (move_of_hostCall h).started hcall,
    fun before between call bytes hcall hbetween => ?sequence, ⟨_, rfl, rfl, rfl⟩⟩
  case unreset =>
    cases h : hostCall c call with
    | none => rfl
    | some p => exact absurd ((move_of_hostCall h).eq_reset hp) hcall
  case ready =>
    rintro ⟨p, h⟩
    exact (phase_of_load (move_of_hostCall h)).1
  case step =>
    rintro ⟨hp, hf⟩
    obtain ⟨p, h⟩ := exists_callStepCycle hf
    exact ⟨p, (if_neg hp).trans h⟩
  case stepConverse =>
    rintro ⟨p, h⟩
    obtain ⟨hp, hf, -⟩ := phase_of_stepCycle (move_of_hostCall h)
    exact ⟨hp, hf⟩
  case sequence =>
    rw [hostCalls_append]
    cases hostCalls c before with
    | none => rfl
    | some d =>
      rw [Option.bind_some, hostCalls]
      split
      · next d' r h => exact (started_of_move (move_of_hostCall h) hcall).hostCalls_load hbetween bytes
      · rfl

/-- Settles O57: past the check of the phase, each call is its operation. -/
theorem displayCallsReadAndClearTheFlag : Obligations.DisplayCallsReadAndClearTheFlag := fun _ hp =>
  ⟨if_neg hp, if_neg hp, _, if_neg hp, rfl, rfl, rfl⟩

/-! ### The first step after a load -/

/-- The word at an address whose two bytes are those of a word (R53). -/
theorem State.wordAt_eq {s : State} {a : Nat} {w : Word} (hhi : s.byteAt a = w.extractLsb' 8 8)
    (hlo : s.byteAt (a + 1) = w.extractLsb' 0 8) : s.wordAt a = w := by
  rw [State.wordAt, hhi, hlo, wordBytes_join]

theorem State.hostReset_wf (s : State) : Memory.wf s.hostReset.fontset s.hostReset.mem := (State.Inv.hostReset s).mem

/-- A load leaves the machine at the load address and not faulted. -/
theorem loaded_pc_faulted {s t : State} {bytes : List Byte} (h : s.hostReset.loadProgram bytes = .ok t) :
    t.pc.toNat = 0x200 ∧ t.faulted = false := by
  obtain ⟨-, rfl⟩ := State.loadProgram_eq_ok.mp h
  simp [State.hostReset, State.resetWith]

/-- The first word that a machine fetches after the load of an image that starts with the word's bytes. -/
theorem loaded_wordAt {s t : State} {w : Word} {rest : List Byte}
    (h : s.hostReset.loadProgram (wordBytes w ++ rest) = .ok t) : t.wordAt 0x200 = w := by
  have hbyte (k : Nat) (hk : k < (wordBytes w ++ rest).length) : t.byteAt (0x200 + k) = (wordBytes w ++ rest).getD k 0 :=
    State.byteAt_loadProgram_image s.hostReset_wf h hk
  exact State.wordAt_eq (hbyte 0 (by simp [wordBytes])) (hbyte 1 (by simp [wordBytes]))

/-- With nothing loaded the first word is 0x0000 (R245). -/
theorem loaded_nil_wordAt {s t : State} (h : s.hostReset.loadProgram [] = .ok t) : t.wordAt 0x200 = 0 := by
  obtain ⟨-, rfl⟩ := State.loadProgram_eq_ok.mp h
  have hbyte (a : Nat) (ha : 80 ≤ a) : s.hostReset.byteAt a = 0 :=
    (State.byteAt_of_mem_nil rfl a).trans (Memory.unlisted_of_ge ha)
  exact State.wordAt_eq (hbyte 0x200 (by decide)) (hbyte 0x201 (by decide))

/-- Settles O59: in both cases the first word is 0x0000, which decodes to nothing. -/
theorem emptyProgramIsAnUnknownOpcode : Obligations.EmptyProgramIsAnUnknownOpcode := by
  intro s t bytes h hbytes
  obtain ⟨hpc, hf⟩ := loaded_pc_faulted h
  have hword : t.wordAt t.pc.toNat = 0 := by
    rw [hpc]
    rcases hbytes with rfl | ⟨rest, rfl⟩
    · exact loaded_nil_wordAt h
    · exact loaded_wordAt (w := 0) h
  have hstep := step_of_unknown hf (by omega) (by rw [hword]; decide)
  rwa [hword] at hstep

/-- Settles O60: the first word is the instruction's, which decodes to it. -/
theorem loadedProgramRunsFromItsFirstInstruction : Obligations.LoadedProgramRunsFromItsFirstInstruction := by
  intro s t u i rest h hw hu
  obtain ⟨hpc, hf⟩ := loaded_pc_faulted h
  have hd : decodeWord (t.wordAt t.pc.toNat) = .ok i := by
    rw [hpc, loaded_wordAt h, decodeWord_encode]
  exact step_eq_next.mpr ⟨hf, by omega, i, hd, .inr ⟨hw, u, hu, rfl⟩⟩

end Sys2Proof.Machine
end

section
/-! PROOFS. The call stack (R120, R122, R123): what a call and a return write and leave unchanged, and nested calls. -/

namespace Sys2Proof.Machine

/-- The slot SP names holds the return address after a call, and every other slot keeps its word (R122, D24). -/
theorem State.called_stack {s : State} (nnn : Addr) (h : s.sp.val < 16) (k : Fin 16) :
    (s.called nnn h).stack[k] = if k.val = s.sp.val then s.pc + 2 else s.stack[k] := by
  simp only [State.called, State.jump_stack, Fin.getElem_fin, Vector.getElem_set, eq_comm]

/-- Settles O24: `called` names the next state with a free slot; SP at 16 is the full stack. -/
theorem callPushesTheReturnAddress : Obligations.CallPushesTheReturnAddress := by
  refine fun nnn s => ⟨encodedAs_call nnn, fun hsp => ⟨_, exec_call_of_lt nnn hsp, toNat_addrOperand nnn, rfl,
    fun k => ⟨fun hk => ?pushed, fun hk => ?kept⟩, fun _ _ => rfl, rfl, fun _ => rfl, ⟨rfl, rfl⟩, ⟨rfl, rfl⟩, rfl, rfl, rfl⟩,
    exec_call_of_full nnn⟩
  case pushed => rw [State.called_stack, if_pos hk]
  case kept => rw [State.called_stack, if_neg hk]

/-- Settles O25: `returned` names the next state with an occupied slot; SP at 0 is the empty stack. -/
theorem retPopsTheReturnAddress : Obligations.RetPopsTheReturnAddress := by
  refine fun s => ⟨encodedAs_ret, fun hsp => ⟨_, exec_ret_of_pos hsp, Nat.sub_add_cancel hsp, rfl, fun k hk => ?popped,
    fun _ _ => rfl, rfl, fun _ => rfl, ⟨rfl, rfl⟩, ⟨rfl, rfl⟩, rfl, rfl, rfl⟩, exec_ret_of_empty⟩
  case popped =>
    have hslot : s.sp.val - 1 = k.val := by omega
    simp [State.returned, hslot]

/-- Settles O26: the call leaves an occupied slot, which holds the return address; the return takes it and SP back. -/
theorem returnComesBackFromACall : Obligations.ReturnComesBackFromACall := by
  intro nnn s hsp
  have hpos : 0 < (s.called nnn hsp).sp.val := Nat.succ_pos _
  refine ⟨_, _, exec_call_of_lt nnn hsp, exec_ret_of_pos hpos, ?pc, rfl, fun k hk => ?stack, rfl⟩
  case pc => exact (State.called_stack nnn hsp ⟨s.sp.val, hsp⟩).trans (if_pos rfl)
  case stack => exact (State.called_stack nnn hsp k).trans (if_neg (by omega))

/-- Calls for which there are slots all answer; each takes one slot, and the slots occupied before keep their words. -/
theorem callAll_of_free (targets : List Addr) {s : State} (h : s.sp.val + targets.length ≤ 16) :
    ∃ t : State, callAll targets s = some t ∧ t.sp.val = s.sp.val + targets.length ∧
      ∀ k : Fin 16, k.val < s.sp.val → t.stack[k] = s.stack[k] := by
  induction targets generalizing s with
  | nil => exact ⟨s, rfl, rfl, fun _ _ => rfl⟩
  | cons nnn rest ih =>
    rw [List.length_cons] at h
    have hsp : s.sp.val < 16 := by omega
    have hcalled : (s.called nnn hsp).sp.val = s.sp.val + 1 := rfl
    obtain ⟨t, ht, htsp, hstack⟩ := ih (s := s.called nnn hsp) (by omega)
    refine ⟨t, ?_, ?_, fun k hk => ?_⟩
    · simp only [callAll, exec_call_of_lt nnn hsp, ht]
    · rw [htsp, hcalled, List.length_cons]
      omega
    · rw [hstack k (by omega), State.called_stack, if_neg (by omega)]

/-- Settles O27: by induction on the targets; when they fill the stack, SP is 16. -/
theorem callsNestUntilTheStackIsFull : Obligations.CallsNestUntilTheStackIsFull := by
  intro targets s h
  obtain ⟨t, ht, htsp, hstack⟩ := callAll_of_free targets h
  exact ⟨t, ht, htsp, hstack, fun hfull nnn => exec_call_of_full nnn (htsp.trans hfull)⟩

end Sys2Proof.Machine
end

section
/-! PROOFS. The rules on registers, timers and keys (R134–R155, R171, R190–R193): each result as a number or bit by bit, and what
`setResultFlag` leaves unchanged. -/

namespace Sys2Proof.Machine

/-! ### Skips on keys -/

/-- An instruction that ends in `Skip` on a Boolean test moves PC by four or by two, and writes nothing else (R136). -/
theorem exec_skip_on {i : Instr} {s : State} {c : Bool} (hexec : exec i s = .next (s.skipIf c)) :
    ∃ t : State, exec i s = .next t ∧ (c = true → t.pc = s.pc + 4) ∧ (c = false → t.pc = s.pc + 2) ∧ onlyRegs [] s t := by
  obtain ⟨t, ht, hfour, htwo, honly, -⟩ := exec_skip_outcome hexec Iff.rfl
  exact ⟨t, ht, hfour, fun hc => htwo (Bool.eq_false_iff.mp hc), honly⟩

/-- Settles O29: VX names a key exactly below 16; `EX9E` skips on the key's state and `EXA1` on its negation. -/
theorem keySkipsTestTheKeyOrFault : Obligations.KeySkipsTestTheKeyOrFault := by
  refine fun x s => ⟨fun k hk => ⟨exec_skip_on (exec_skp_of_key (keyIndex_eq_some.mpr hk)), ?sknp⟩,
    fun h => ⟨exec_skp_of_no_key (keyIndex_eq_none.mpr h), exec_sknp_of_no_key (keyIndex_eq_none.mpr h)⟩⟩
  case sknp =>
    obtain ⟨t, ht, hfour, htwo, honly⟩ := exec_skip_on (exec_sknp_of_key (keyIndex_eq_some.mpr hk))
    exact ⟨t, ht, fun hup => hfour (by rw [hup]; rfl), fun hdown => htwo (by rw [hdown]; rfl), honly⟩

/-! ### Results without a flag -/

/-- Settles O33: the three results are the bitwise operations, read bit by bit; `setResult` writes VX and PC alone. -/
theorem logicInstructionsWorkBitByBit : Obligations.LogicInstructionsWorkBitByBit := by
  rintro x y s i f (⟨rfl, rfl⟩ | ⟨rfl, rfl⟩ | ⟨rfl, rfl⟩)
  · exact ⟨_, exec_or x y s, fun k _ => by rw [State.reg_setResult_same, BitVec.getLsbD_or], rfl, s.onlyRegs_setResult x _⟩
  · exact ⟨_, exec_and x y s, fun k _ => by rw [State.reg_setResult_same, BitVec.getLsbD_and], rfl, s.onlyRegs_setResult x _⟩
  · exact ⟨_, exec_xor x y s, fun k _ => by rw [State.reg_setResult_same, BitVec.getLsbD_xor], rfl, s.onlyRegs_setResult x _⟩

/-- Settles O46: the result is the old DT; `setResult` writes VX and PC alone. -/
theorem readDelayTimerCopiesDT : Obligations.ReadDelayTimerCopiesDT := fun x s =>
  ⟨encodedAs_ldVDt x, _, exec_ldVDt x s, s.reg_setResult_same x s.dt, rfl, s.onlyRegs_setResult x s.dt⟩

/-- A result in VX after a draw leaves all but VX, PC and the counter of draws unchanged. -/
theorem State.onlyRegs_takeDraw_setResult (s : State) (x : Reg) (w : Byte) : onlyRegs [x] s (s.takeDraw.setResult x w) :=
  s.takeDraw.onlyRegs_setResult x w

/-- Settles O37: the result is the byte drawn under the mask, read bit by bit, whatever the byte is. -/
theorem randomByteIsMasked : Obligations.RandomByteIsMasked := by
  refine fun x nn s => ⟨_, exec_rnd x nn s, fun k _ => ?bits, rfl, rfl, s.onlyRegs_takeDraw_setResult x _⟩
  case bits => rw [State.reg_setResult_same, BitVec.getLsbD_and]

/-- Settles O49: with some key pressed `FX0A` does not wait, and the key it stores is among the pressed ones; with none it
waits. -/
theorem keyWaitReportsAPressedKey : Obligations.KeyWaitReportsAPressedKey := by
  refine fun x s => ⟨?pressed, fun hnone => ⟨exec_ldVK_of_no_key x hnone, waits_eq_true.mpr ⟨⟨x, rfl⟩, hnone⟩⟩⟩
  case pressed =>
    rintro ⟨j, hj⟩
    have hsome : ¬ ∀ k, s.pressed k = false := fun hnone => by
      rw [hnone j] at hj
      cases hj
    rcases exec_ldVK_cases x s with ⟨hnone, -⟩ | ⟨k, -, hk, hexec⟩
    · exact absurd hnone hsome
    · have hbyte : (BitVec.ofNat 8 k.val).toNat = k.val := by
        rw [BitVec.toNat_ofNat]
        omega
      refine ⟨_, k, hexec, Bool.eq_false_iff.mpr fun hw => hsome (waits_eq_true.mp hw).2, hk, ?_, rfl, rfl,
        s.onlyRegs_takeDraw_setResult x _⟩
      rw [State.reg_setResult_same, hbyte]

/-! ### Results with a flag -/

@[simp] theorem State.reg_setResultFlag_VF (s : State) (x : Reg) (w : Byte) (f : Bool) :
    (s.setResultFlag x w f).reg regVF = flagByte f :=
  (s.reg_setResultFlag x regVF w f).trans (if_pos rfl)

theorem State.reg_setResultFlag_same (s : State) {x : Reg} (hx : x ≠ regVF) (w : Byte) (f : Bool) :
    (s.setResultFlag x w f).reg x = w := by
  rw [State.reg_setResultFlag, if_neg hx, if_pos rfl]

/-- A result in VX with a flag leaves all but VX, VF and PC unchanged. -/
theorem State.onlyRegs_setResultFlag (s : State) (x : Reg) (w : Byte) (f : Bool) :
    onlyRegs [x, regVF] s (s.setResultFlag x w f) := by
  refine ⟨fun r hr => ?registers, s.setResultFlag_i x w f, s.byteAt_setResultFlag x w f, ⟨rfl, rfl⟩, ⟨rfl, rfl⟩, ⟨rfl, rfl⟩,
    rfl, rfl, rfl⟩
  case registers =>
    obtain ⟨hx, hvf⟩ := not_or.mp (List.mem_pair.not.mp hr)
    rw [State.reg_setResultFlag, if_neg hvf, if_neg hx]

theorem flagByte_decide_pos {p : Prop} [Decidable p] (h : p) : flagByte (decide p) = 1 := by simp [flagByte, h]

theorem flagByte_decide_neg {p : Prop} [Decidable p] (h : ¬ p) : flagByte (decide p) = 0 := by simp [flagByte, h]

/-- Settles O34: the sum of two bytes is the sum modulo 256, and VF, written last, is the carry. -/
theorem addReportsTheCarryInVF : Obligations.AddReportsTheCarryInVF := by
  refine fun x y s => ⟨_, exec_addReg x y s, fun hx => ?sum, fun h => ?carry, fun h => ?noCarry, rfl,
    s.onlyRegs_setResultFlag x _ _⟩
  case sum => rw [State.reg_setResultFlag_same s hx, BitVec.toNat_add]
  case carry => exact (s.reg_setResultFlag_VF x _ _).trans (flagByte_decide_pos h)
  case noCarry => exact (s.reg_setResultFlag_VF x _ _).trans (flagByte_decide_neg (Nat.not_lt.mpr h))

/-- The difference of two bytes, as a number (R151). -/
theorem toNat_byte_sub (p q : Byte) : ((p - q).toNat : Int) = ((p.toNat : Int) - (q.toNat : Int)) % 256 := by
  have := p.isLt
  have := q.isLt
  rw [BitVec.toNat_sub]
  omega

/-- An instruction that writes a difference to VX and no-borrow to VF (R147, R149). -/
theorem exec_difference_outcome {i : Instr} {x : Reg} {s : State} {p q : Byte}
    (hexec : exec i s = .next (s.setResultFlag x (p - q) (noBorrow p q))) :
    ∃ t : State, exec i s = .next t ∧
      (x ≠ regVF → ((t.reg x).toNat : Int) = ((p.toNat : Int) - (q.toNat : Int)) % 256) ∧
      (q.toNat ≤ p.toNat → t.reg regVF = 1) ∧ (p.toNat < q.toNat → t.reg regVF = 0) ∧
      t.pc = s.pc + 2 ∧ onlyRegs [x, regVF] s t := by
  refine ⟨_, hexec, fun hx => ?difference, fun h => ?noBorrow, fun h => ?borrow, rfl, s.onlyRegs_setResultFlag x _ _⟩
  case difference => rw [State.reg_setResultFlag_same s hx, toNat_byte_sub]
  case noBorrow => exact (s.reg_setResultFlag_VF x _ _).trans (flagByte_decide_pos h)
  case borrow => exact (s.reg_setResultFlag_VF x _ _).trans (flagByte_decide_neg (Nat.not_le.mpr h))

/-- Settles O35: the two instructions differ in which operand is the minuend. -/
theorem subtractionsReportNoBorrowInVF : Obligations.SubtractionsReportNoBorrowInVF := by
  rintro x y s i p q (⟨rfl, rfl, rfl⟩ | ⟨rfl, rfl, rfl⟩)
  · exact exec_difference_outcome (exec_sub x y s)
  · exact exec_difference_outcome (exec_subn x y s)

/-- A bit of a byte, as the number VF takes from it. -/
theorem toNat_flagByte_getLsbD (a : Byte) (k : Nat) : (flagByte (a.getLsbD k)).toNat = a.toNat / 2 ^ k % 2 := by
  rw [BitVec.getLsbD, Nat.testBit_eq_decide_div_mod_eq, flagByte]
  split_ifs with h
  · exact (of_decide_eq_true h).symm
  · have := of_decide_eq_false (Bool.eq_false_iff.mpr h)
    exact (by omega : 0 = a.toNat / 2 ^ k % 2)

/-- Settles O36: a shift to the right halves and one to the left doubles modulo 256; the bit shifted out is bit 0 or bit 7. -/
theorem shiftsPutTheBitShiftedOutInVF : Obligations.ShiftsPutTheBitShiftedOutInVF := by
  refine fun x y s => ⟨⟨_, exec_shr x y s, fun hx => ?half, ?bit0, rfl, s.onlyRegs_setResultFlag x _ _⟩,
    ⟨_, exec_shl x y s, fun hx => ?double, ?bit7, rfl, s.onlyRegs_setResultFlag x _ _⟩⟩
  case half => rw [State.reg_setResultFlag_same s hx, BitVec.toNat_ushiftRight, Nat.shiftRight_eq_div_pow]
  case bit0 =>
    rw [State.reg_setResultFlag_VF, bitOutRight, toNat_flagByte_getLsbD]
    omega
  case double => rw [State.reg_setResultFlag_same s hx, BitVec.toNat_shiftLeft, Nat.shiftLeft_eq]
  case bit7 =>
    have := (s.reg x).isLt
    rw [State.reg_setResultFlag_VF, bitOutLeft, toNat_flagByte_getLsbD]
    omega

/-- Settles O39: the sum is reduced modulo 0x1000 in I, and VF, written last, tells whether it exceeds 0xFFF. -/
theorem addToIndexReportsOverflowInVF : Obligations.AddToIndexReportsOverflowInVF := by
  intro x s
  have hvf : ((s.setIndex (s.indexSum x)).setFlag (indexOverflow s.i (s.reg x))).advance.reg regVF =
      flagByte (indexOverflow s.i (s.reg x)) := (State.reg_setFlag _ _ regVF).trans (if_pos rfl)
  refine ⟨_, exec_addI x s, s.toNat_indexSum x, fun h => ?overflow, fun h => ?noOverflow, rfl, fun r hr => ?registers,
    fun _ => rfl, ⟨rfl, rfl⟩, ⟨rfl, rfl⟩, ⟨rfl, rfl⟩, rfl, rfl, rfl⟩
  case overflow => exact hvf.trans (flagByte_decide_pos h)
  case noOverflow => exact hvf.trans (flagByte_decide_neg (Nat.not_lt.mpr h))
  case registers => exact (State.reg_setFlag _ _ r).trans (if_neg (List.mem_singleton.not.mp hr))

/-! ### The sound timer -/

/-- Settles O48: ST is VX, so the same cycle's tick leaves what `tickDown` makes of VX and beeps on 1; from 2 it leaves the 1
that beeps. -/
theorem setSoundTimerWritesST : Obligations.SetSoundTimerWritesST := by
  refine fun x s => ⟨encodedAs_ldSt x, _, exec_ldSt x s, rfl, rfl, rfl, toNat_tickDown _, beq_iff_eq, fun htwo => ?beepNext,
    fun _ _ => rfl, rfl, fun _ => rfl, ⟨rfl, rfl⟩, ⟨rfl, rfl⟩, rfl, rfl, rfl⟩
  case beepNext =>
    rw [State.beeps_eq_true, State.tick_st, toNat_tickDown, State.advance_st, htwo]
    rfl

end Sys2Proof.Machine
end

section
/-! PROOFS. The instructions that access memory (R57, R112, R173–R175): their errors, what they store and load, the sprite that is
drawn, and the fetch of a stored instruction. -/

namespace Sys2Proof.Machine

/-! ### Errors and answers of an access -/

/-- Settles O44: with I in its range each of the four checks fails with the address 0x1000. -/
theorem dataAccessesAboveMemoryFault : Obligations.DataAccessesAboveMemoryFault := by
  intro s hi
  have hfault {count : Nat} (t : State) (h : 0x1000 < s.i.toNat + count) :
      guardAccess s.dataBase count t = .fault (.memoryOutOfBounds 0x1000) :=
    (guardAccess_dataBase_eq_fault hi).mpr ⟨h, rfl⟩
  refine ⟨fun x y n _ h => ?_, fun x h => ?_, fun x h => ⟨?_, ?_⟩⟩
  · exact hfault _ (by omega)
  · exact hfault _ (by omega)
  · exact hfault _ (by omega)
  · exact hfault _ (by omega)

theorem guardAccess_of_fits {base count : Nat} (t : State) (h : base + count ≤ 0x1000) : guardAccess base count t = .next t :=
  guardAccess_eq_next.mpr ⟨.inr h, rfl⟩

/-- What an instruction that stores bytes at I and advances leaves unchanged (R173, R174). -/
theorem State.storeBytes_advance_frame {s : State} (hwf : Memory.wf s.fontset s.mem) {ws : List Byte} {count : Nat}
    (hlen : ws.length = count) (hfits : s.dataBase + count ≤ 0x1000) :
    sameMemoryOutside s.dataBase count s (s.storeBytes s.dataBase ws).advance ∧
      (s.storeBytes s.dataBase ws).advance.pc = s.pc + 2 ∧ sameRegsBut [] s (s.storeBytes s.dataBase ws).advance ∧
      (s.storeBytes s.dataBase ws).advance.i = s.i ∧ sameDisplay s (s.storeBytes s.dataBase ws).advance ∧
      sameStack s (s.storeBytes s.dataBase ws).advance ∧ sameTimers s (s.storeBytes s.dataBase ws).advance ∧
      sameFixed s (s.storeBytes s.dataBase ws).advance := by
  subst hlen
  refine ⟨fun a ha => ?memory, by simp, fun r _ => by simp, by simp, ⟨by simp, by simp⟩, ⟨by simp, by simp⟩,
    ⟨by simp, by simp⟩, by simp, by simp, by simp⟩
  case memory => exact State.byteAt_storeBytes_outside ws s.dataBase hwf hfits ha

theorem toNat_bcdDigits (a : Byte) :
    ((bcdDigits a).getD 0 0).toNat = a.toNat / 100 ∧ ((bcdDigits a).getD 1 0).toNat = a.toNat / 10 % 10 ∧
      ((bcdDigits a).getD 2 0).toNat = a.toNat % 10 := by
  have := a.isLt
  simp only [bcdDigits, List.getD_cons_zero, List.getD_cons_succ, BitVec.toNat_ofNat]
  omega

/-- Settles O41: the three digits are stored from I on; each is below 256, so its byte is the digit. -/
theorem storeBcdWritesThreeDigits : Obligations.StoreBcdWritesThreeDigits := by
  intro x s hwf hi
  have hfits : s.dataBase + 3 ≤ 0x1000 := Nat.succ_le_succ hi
  obtain ⟨hundreds, tens, ones⟩ := toNat_bcdDigits (s.reg x)
  have hbyte {k : Nat} (hk : k < 3) :
      (s.storeBytes s.dataBase (bcdDigits (s.reg x))).advance.byteAt (s.dataBase + k) = (bcdDigits (s.reg x)).getD k 0 :=
    State.byteAt_storeBytes_inside (bcdDigits (s.reg x)) s.dataBase hwf hfits hk
  refine ⟨_, guardAccess_of_fits _ hfits, ?_, ?_, ?_, rfl, State.storeBytes_advance_frame hwf rfl hfits⟩
  · exact (congrArg BitVec.toNat (hbyte (k := 0) (by decide))).trans hundreds
  · exact (congrArg BitVec.toNat (hbyte (k := 1) (by decide))).trans tens
  · exact (congrArg BitVec.toNat (hbyte (k := 2) (by decide))).trans ones

/-- Settles O42: the list V0..VX is stored from I on, and its entry k is Vk. -/
theorem storeRegistersWritesThemFromI : Obligations.StoreRegistersWritesThemFromI := by
  intro x s hwf hi
  have hfits : s.dataBase + (x.val + 1) ≤ 0x1000 := Nat.succ_le_succ hi
  have hlen : (s.regsUpTo x).length = x.val + 1 := s.length_regsUpTo x
  refine ⟨_, guardAccess_of_fits _ hfits, fun k hk => ?_, rfl, State.storeBytes_advance_frame hwf hlen hfits⟩
  have hk' : k.val < (s.regsUpTo x).length := by
    rw [hlen]
    exact Nat.lt_succ_of_le hk
  exact (State.byteAt_storeBytes_inside _ s.dataBase hwf (hlen ▸ hfits) hk').trans (s.getD_regsUpTo hk)

/-- A load of V0..VX leaves all but those registers and PC unchanged (R175). -/
theorem State.onlyRegs_loadRegs_advance (s : State) (base : Nat) (x : Reg) :
    onlyRegs (regsThrough x) s (s.loadRegs base x).advance := by
  refine ⟨fun r hr => ?registers, by simp, fun a => by simp, ⟨by simp, by simp⟩, ⟨by simp, by simp⟩, ⟨by simp, by simp⟩,
    by simp, by simp, by simp⟩
  case registers =>
    have hrx : ¬ r ≤ x := fun hle => hr (by simp [regsThrough, hle])
    rw [State.reg_advance, State.reg_loadRegs, if_neg hrx]

/-- Settles O43: `loadRegs` reads each register up to VX from its byte and keeps those above. -/
theorem loadRegistersReadsThemFromI : Obligations.LoadRegistersReadsThemFromI := by
  intro x s hi
  have hfits : s.dataBase + (x.val + 1) ≤ 0x1000 := Nat.succ_le_succ hi
  refine ⟨_, guardAccess_of_fits _ hfits, fun k hk => ?loaded, by simp, s.onlyRegs_loadRegs_advance s.dataBase x⟩
  case loaded => rw [State.reg_advance, State.reg_loadRegs, if_pos hk, State.dataBase]

/-! ### A stored instruction -/

/-- Settles O45: the two stored bytes lie in memory below 0x1000, so the fetch at their address reads them back, and the word they
make decodes to the instruction. -/
theorem storedInstructionIsFetched : Obligations.StoredInstructionIsFetched := by
  intro x k k' i s t hinv hstore hk' hx henc hw u hu
  have hle : k'.val ≤ x.val := hx
  obtain ⟨hfits, -⟩ := guardAccess_eq_next.mp ((exec_ldMemV x s).symm.trans hstore)
  have hbound : s.i.toNat + x.val ≤ 0xFFF := by
    have hbase : s.dataBase = s.i.toNat := rfl
    omega
  obtain ⟨t', ht', hbytes, -, -, -, -, -, -, -, -, -, hfault, -⟩ := storeRegistersWritesThemFromI x s hinv.mem hbound
  obtain rfl : t' = t := Host.Outcome.next.inj (ht'.symm.trans hstore)
  have hpc : (t'.jump (BitVec.ofNat 16 (s.i.toNat + k.val))).pc.toNat = s.i.toNat + k.val := by
    rw [State.jump_pc, BitVec.toNat_ofNat]
    omega
  have hhi : t'.byteAt (s.i.toNat + k.val) = s.reg k := hbytes k (Fin.le_def.mpr (by omega))
  have hlo : t'.byteAt (s.i.toNat + k.val + 1) = s.reg k' := by
    rw [Nat.add_assoc, ← hk']
    exact hbytes k' hx
  have hd : decodeWord ((t'.jump (BitVec.ofNat 16 (s.i.toNat + k.val))).wordAt (s.i.toNat + k.val)) = .ok i := by
    rw [State.wordAt, State.byteAt_jump, State.byteAt_jump, hhi, hlo, ← henc, decodeWord_encode]
  exact step_eq_next.mpr ⟨hfault.trans hinv.running, by rw [hpc]; omega, i, hpc.symm ▸ hd, .inr ⟨hw, u, hu, rfl⟩⟩

/-! ### Sprites -/

/-- Settles O20: the sprite has at most 15 rows, so `blitSprite_spec` says of every pixel whether it is flipped and of VF whether
one was set. -/
theorem drwXorsTheSprite : Obligations.DrwXorsTheSprite := by
  intro x y n s hrows
  have hlen : (s.bytesAt s.i.toNat n.val).length ≤ 32 := by
    rw [State.length_bytesAt]
    omega
  obtain ⟨hpixels, hcollision⟩ := blitSprite_spec (s.reg x).toNat (s.reg y).toNat (s.bytesAt s.i.toNat n.val) s.fb hlen
  have hvf : (s.drawn x y n).reg regVF = flagByte (s.spriteBlit x y n).collision :=
    (State.reg_setFlag _ _ regVF).trans (if_pos rfl)
  refine ⟨_, guardAccess_eq_next.mpr ⟨hrows, rfl⟩, hpixels, fun h => ?hit, fun h => ?miss, rfl, rfl, fun r hr => ?registers, rfl,
    fun _ => rfl, ⟨rfl, rfl⟩, ⟨rfl, rfl⟩, rfl, rfl, rfl⟩
  case hit =>
    have hc : (s.spriteBlit x y n).collision = true := hcollision.mpr h
    exact hvf.trans (congrArg flagByte hc)
  case miss =>
    have hc : (s.spriteBlit x y n).collision = false := Bool.eq_false_iff.mpr fun hc => h (hcollision.mp hc)
    exact hvf.trans (congrArg flagByte hc)
  case registers => exact (State.reg_setFlag _ _ r).trans (if_neg (List.mem_singleton.not.mp hr))

/-- Framebuffers with the same pixels are the same. -/
theorem framebuffer_ext {fb fb' : Framebuffer} (h : ∀ px py, pixelAt fb px py = pixelAt fb' px py) : fb = fb' := by
  refine Vector.ext fun px hpx => Vector.ext fun py hpy => ?_
  exact h ⟨px, hpx⟩ ⟨py, hpy⟩

theorem State.bytesAt_congr {s t : State} (h : sameMemory s t) (base count : Nat) :
    t.bytesAt base count = s.bytesAt base count :=
  List.map_congr_left fun k _ => h (base + k)

/-- Settles O21: the first draw leaves the coordinates, I and memory, so the second flips the same pixels back, and collides on
those that the first one set. -/
theorem drawingASpriteTwiceErasesIt : Obligations.DrawingASpriteTwiceErasesIt := by
  intro x y n s hx hy hrows
  obtain ⟨t, ht, hflip, -, -, -, -, hregs, hindex, hmem, -⟩ := drwXorsTheSprite x y n s (.inr hrows)
  obtain ⟨u, hu, hback, hhit, hmiss, -⟩ := drwXorsTheSprite x y n t (.inr (hindex ▸ hrows))
  rw [hregs x (List.mem_singleton.not.mpr hx), hregs y (List.mem_singleton.not.mpr hy), hindex,
    State.bytesAt_congr hmem] at hback hhit hmiss
  refine ⟨t, u, ht, hu, framebuffer_ext fun px py => ?_, ?_⟩
  · by_cases h : spriteHits (s.reg x).toNat (s.reg y).toNat (s.bytesAt s.i.toNat n.val) px py
    · rw [(hback px py).1 h, (hflip px py).1 h, Bool.not_not]
    · rw [(hback px py).2 h, (hflip px py).2 h]
  · have hset : (∃ px py, spriteHits (s.reg x).toNat (s.reg y).toNat (s.bytesAt s.i.toNat n.val) px py ∧
        pixelAt t.fb px py = true) ↔
        ∃ px py, spriteHits (s.reg x).toNat (s.reg y).toNat (s.bytesAt s.i.toNat n.val) px py ∧
          pixelAt s.fb px py = false :=
      exists₂_congr fun px py => and_congr_right fun h => by rw [(hflip px py).1 h, Bool.not_eq_true']
    rw [← hset]
    refine ⟨fun hone => ?_, hhit⟩
    by_contra hnone
    rw [hmiss hnone] at hone
    exact absurd hone (by decide)

end Sys2Proof.Machine
end

section
/-! PROOFS. The canonical form of memory (R50, R42): its entries are read off its reads, so it is unique. -/

namespace Sys2Proof.Machine

/-- With rising addresses the first entry for an address is its only one. -/
theorem Memory.find_of_mem {m : Memory} (hm : m.Pairwise fun c d => c.1 < d.1) {a : Nat} {w : Byte} (h : (a, w) ∈ m) :
    Memory.find m a = some w := by
  induction m with
  | nil => cases h
  | cons c m ih =>
    obtain ⟨k, u⟩ := c
    obtain ⟨hlt, hm'⟩ := List.pairwise_cons.mp hm
    rcases List.mem_cons.mp h with hhead | htail
    · cases hhead
      simp
    · have hka : k ≠ a := Nat.ne_of_lt (hlt (a, w) htail)
      rw [Memory.find_cons, if_neg hka, ih hm' htail]

/-- The entries of a canonical memory are the bytes that differ from what an unlisted address reads as. -/
theorem Memory.mem_iff_read {font : Vector Byte 80} {m : Memory} (hm : Memory.wf font m) (c : Host.Cell) :
    c ∈ m ↔ c.1 < 0x1000 ∧ Memory.read font m c.1 = c.2 ∧ c.2 ≠ Memory.unlisted font c.1 := by
  obtain ⟨hrise, hcell⟩ := hm
  obtain ⟨a, w⟩ := c
  constructor
  · intro h
    obtain ⟨ha, hw⟩ := hcell (a, w) h
    exact ⟨ha, by simp [Memory.read, Memory.find_of_mem hrise h], hw⟩
  · rintro ⟨-, hread, hw⟩
    cases hfind : Memory.find m a with
    | none => exact absurd (by simpa [Memory.read, hfind] using hread.symm) hw
    | some u =>
      have huw : u = w := by simpa [Memory.read, hfind] using hread
      exact Memory.mem_of_find (hfind.trans (congrArg some huw))

/-- Settles O5: two canonical memories that read alike have the same entries, in the one order in which addresses rise. -/
theorem canonicalMemoriesThatReadAlikeAreEqual : Obligations.CanonicalMemoriesThatReadAlikeAreEqual := by
  intro font m m' hm hm' hread
  have hasymm : Std.Asymm fun c d : Host.Cell => c.1 < d.1 := ⟨fun _ _ => Nat.lt_asymm⟩
  refine List.Pairwise.eq_of_mem_iff hm.1 hm'.1 fun c => ?_
  rw [Memory.mem_iff_read hm, Memory.mem_iff_read hm']
  exact and_congr_right fun hc => by rw [hread c.1 hc]

end Sys2Proof.Machine
end
